-- ==== Sys2Proof/Word.lean ====
section
/-! DEFINITION. The words of HAVAL-CE (00_scope.md R7, R8) and the words a host presents to it. Every value is
unsigned; bit 0 is the least significant bit. -/

namespace Sys2Proof

/-- A message byte, one byte of BLK. -/
abbrev Byte := BitVec 8

/-- The 32-bit word of the engine and of its bus (R7). -/
abbrev Word := BitVec 32

/-- Eight words: FP[0..7], T[0..7], DIGEST[0..7] (10_state.md R20, R28, R30). -/
abbrev Words8 := Vector Word 8

/-- One host access as it is presented, not yet decoded. R87: one line of a host program is one register access.
DESIGN CHOICE (log 13): the opcode table has two formats, so an access is given in either. -/
inductive Access where
  /-- A command line of R87 (format CMD): the host writes the word `v` to CTRL. -/
  | cmd (v : Word)
  /-- `RegRead(off)` at byte offset `off` of the window (format BUS, W = 0). -/
  | read (off : BitVec 7)
  /-- `RegWrite(off, v)` at byte offset `off` of the window (format BUS, W = 1). -/
  | write (off : BitVec 7) (v : Word)
  deriving DecidableEq, Repr

end Sys2Proof
end

