-- ==== Sys2Proof/Syntax.lean ====
section
/-! DEFINITION. The instructions of HAVAL-CE: one constructor per row of spec/opcode_table.json
(30_encoding.md R80, R84). -/

namespace Sys2Proof

/-- R2: the engine's instructions are the commands written to CTRL and the accesses to its register window. -/
inductive Instr where
  /-- NOP (R104). -/
  | nop
  /-- START p, w (R105): the PASSES and WORDS fields as the word carries them; any value decodes (R83). -/
  | start (passes : BitVec 3) (words : BitVec 4)
  /-- ABSORB nb (R106): the NB field. -/
  | absorb (nb : BitVec 3)
  /-- FINAL (R107). -/
  | final
  /-- ABORT (R108). -/
  | abort
  /-- WR_CTRL: a write of `v` to CTRL (R100). -/
  | wrCtrl (v : Word)
  /-- WR_DATA: a write of `v` to DATA (R109). -/
  | wrData (v : Word)
  /-- WR_MSG: a write of `v` to MSG (R110). -/
  | wrMsg (v : Word)
  /-- WR_IGNORED: a write of `v` at word offset `a`, which has no effect (R112). -/
  | wrIgnored (a : BitVec 5) (v : Word)
  /-- RD: a read at word offset `a` (R111). -/
  | rd (a : BitVec 5)
  deriving DecidableEq, Repr

end Sys2Proof
end

