-- ==== Sys2Proof/WellFormed.lean ====
section
/-! DEFINITION. Which terms of Instr some access encodes (30_encoding.md R80, R84). -/

namespace Sys2Proof

/-- The two conditions of the opcode table: NB is at most 4 in an ABSORB (R84), and an ignored write is at none of
the offsets of CTRL, DATA and MSG (R80). Every field value of the other rows is encoded by some access; a START
with an unsupported pair is well-formed (R83). -/
def wellFormed : Instr → Bool
  | .nop => true
  | .start _ _ => true
  | .absorb nb => decide (nb.toNat ≤ 4)
  | .final => true
  | .abort => true
  | .wrCtrl _ => true
  | .wrData _ => true
  | .wrMsg _ => true
  | .wrIgnored a _ => a != 0 && a != 3 && a != 4
  | .rd _ => true

end Sys2Proof
end

