-- ==== Sys2Proof/Decode.lean ====
section
/-! DEFINITION. Decoding of command words and bus descriptors, and the encoder (30_encoding.md). Decoding depends on
nothing but the word (R86). -/

namespace Sys2Proof

/-! ## The fields of a command word (R81, R82) -/

/-- `op = v[3:0]` (R82). -/
def opField (v : Word) : BitVec 4 := v.extractLsb' 0 4

/-- `nb = v[6:4]` (R82). -/
def nbField (v : Word) : BitVec 3 := v.extractLsb' 4 3

/-- `passes = v[10:8]` (R82). -/
def passesField (v : Word) : BitVec 3 := v.extractLsb' 8 3

/-- `words = v[15:12]` (R82). -/
def wordsField (v : Word) : BitVec 4 := v.extractLsb' 12 4

/-- R83: bits 31:16, 11 and 7 are reserved and must be 0. -/
def reservedClear (v : Word) : Bool :=
  v.extractLsb' 16 16 == 0 && v.extractLsb' 11 1 == 0 && v.extractLsb' 7 1 == 0

/-- `wellformed(v)` of R83. -/
def wellFormedWord (v : Word) : Bool :=
  reservedClear v && decide ((opField v).toNat ≤ 4) && decide ((nbField v).toNat ≤ 4)
    && (opField v == 2 || nbField v == 0)
    && (opField v == 1 || (passesField v == 0 && wordsField v == 0))

/-! ## Format CMD: the opcode map (R84) -/

/-- Why a command word encodes no command (R85). Whatever the reason, writing the word to CTRL raises ILLEGAL. -/
inductive Reject where
  /-- A bit of 31:16, 11 or 7 is set. -/
  | reservedBits
  /-- OP is 5 to 15. -/
  | reservedOp
  /-- NB is 5 to 7. -/
  | tooManyBytes
  /-- NB is nonzero outside ABSORB. -/
  | bytesOutsideAbsorb
  /-- PASSES or WORDS is nonzero outside START. -/
  | configOutsideStart
  deriving DecidableEq, Repr

/-- R84: "a word is the command when `v & mask == match`". -/
def rowHit (mask pattern v : Word) : Bool := v &&& mask == pattern

/-- The row NOP of R84. -/
def isNop (v : Word) : Bool := rowHit 0xFFFFFFFF 0x00000000 v

/-- The row START of R84. -/
def isStart (v : Word) : Bool := rowHit 0xFFFF08FF 0x00000001 v

/-- The row ABSORB of R84, with its extra condition NB ≤ 4. -/
def isAbsorb (v : Word) : Bool := rowHit 0xFFFFFF8F 0x00000002 v && decide ((nbField v).toNat ≤ 4)

/-- The row FINAL of R84. -/
def isFinal (v : Word) : Bool := rowHit 0xFFFFFFFF 0x00000003 v

/-- The row ABORT of R84. -/
def isAbort (v : Word) : Bool := rowHit 0xFFFFFFFF 0x00000004 v

/-- The name under which a word outside the opcode map is rejected (R85). -/
def rejectReason (v : Word) : Reject :=
  if !reservedClear v then .reservedBits
  else if 4 < (opField v).toNat then .reservedOp
  else if 4 < (nbField v).toNat then .tooManyBytes
  else if opField v != 2 && nbField v != 0 then .bytesOutsideAbsorb
  else .configOutsideStart

/-- R84: the command a word encodes; "every other 32-bit value is illegal". -/
def decodeCmd (v : Word) : Except Reject Instr :=
  if isNop v then .ok .nop
  else if isStart v then .ok (.start (passesField v) (wordsField v))
  else if isAbsorb v then .ok (.absorb (nbField v))
  else if isFinal v then .ok .final
  else if isAbort v then .ok .abort
  else .error (rejectReason v)

/-! ## Format BUS: the access descriptor (R80) -/

/-- The descriptor `{W, A[4:0]}` of an access at byte offset `off`: A is offset bits 6:2, and offset bits 1:0 are
ignored (R80, 20_memory.md R52). -/
def descriptor (write : Bool) (off : BitVec 7) : BitVec 6 := BitVec.ofBool write ++ off.extractLsb' 2 5

/-- The access a descriptor names, with the value `v` of a write (R80: "the list is complete"). -/
def decodeBus (d : BitVec 6) (v : Word) : Instr :=
  let a := d.extractLsb' 0 5
  if d.getLsbD 5 then
    if a == 0 then .wrCtrl v
    else if a == 3 then .wrData v
    else if a == 4 then .wrMsg v
    else .wrIgnored a v
  else .rd a

/-! ## Accesses -/

/-- The instruction an access encodes. -/
def decodeAccess : Access → Except Reject Instr
  | .cmd v => decodeCmd v
  | .read off => .ok (decodeBus (descriptor false off) 0)
  | .write off v => .ok (decodeBus (descriptor true off) v)

/-- The instruction the engine performs for an access. A command line whose word encodes no command is still a write
of that word to CTRL (R87, `CTRL <v>`), which raises ILLEGAL (40_commands.md R100). -/
def instrOf : Access → Instr
  | .cmd v =>
    match decodeCmd v with
    | .ok i => i
    | .error _ => .wrCtrl v
  | .read off => decodeBus (descriptor false off) 0
  | .write off v => decodeBus (descriptor true off) v

/-! ## The encoder (R82, R84, R87) -/

/-- `0x00000001 | (p << 8) | (w << 12)` (R84, R87). -/
def startWord (p : BitVec 3) (w : BitVec 4) : Word :=
  0x00000001 ||| (p.setWidth 32 <<< 8) ||| (w.setWidth 32 <<< 12)

/-- `0x00000002 | (nb << 4)` (R87, 40_commands.md R106). -/
def absorbWord (nb : BitVec 3) : Word := 0x00000002 ||| (nb.setWidth 32 <<< 4)

/-- The byte offset whose bits 6:2 are `a` and whose bits 1:0 are 0. -/
def byteOffset (a : BitVec 5) : BitVec 7 := a ++ (0 : BitVec 2)

/-- The access that encodes an instruction. -/
def encode : Instr → Access
  | .nop => .cmd 0x00000000
  | .start p w => .cmd (startWord p w)
  | .absorb nb => .cmd (absorbWord nb)
  | .final => .cmd 0x00000003
  | .abort => .cmd 0x00000004
  | .wrCtrl v => .write (byteOffset 0) v
  | .wrData v => .write (byteOffset 3) v
  | .wrMsg v => .write (byteOffset 4) v
  | .wrIgnored a v => .write (byteOffset a) v
  | .rd a => .read (byteOffset a)

/-! ## Words numbered as the opcode table numbers them

A CMD row has 32 bits. A BUS row has the 6 bits of the descriptor, one byte; the written value, to which the table
gives no bits, follows it as four bytes, least significant first (log 13). -/

/-- The access whose bits are `w`, for a row of `nbits` bits. -/
def accessOfTableWord (nbits w : Nat) : Option Access :=
  if nbits == 32 then (if w < 2 ^ 32 then some (.cmd (BitVec.ofNat 32 w)) else none)
  else if w % 256 / 64 != 0 || 2 ^ 40 ≤ w then none
  else if w.testBit 5 then some (.write (byteOffset (BitVec.ofNat 5 w)) (BitVec.ofNat 32 (w / 256)))
  else if w / 256 == 0 then some (.read (byteOffset (BitVec.ofNat 5 w)))
  else none

/-- The instruction the decoder reads from a row's bits, none where it refuses. -/
def decodeTableWord (nbits w : Nat) : Option Instr :=
  (accessOfTableWord nbits w).bind fun a => (decodeAccess a).toOption

/-- The number of bits and the bits of an access, as the opcode table numbers them. -/
def tableWordOf : Access → Nat × Nat
  | .cmd v => (32, v.toNat)
  | .read off => (8, (descriptor false off).toNat)
  | .write off v => (40, (descriptor true off).toNat + 256 * v.toNat)

end Sys2Proof
end

