-- ==== Sys2Proof/Config.lean ====
section
/-! DEFINITION. What an implementation fixes (the OPEN parameters of 00_scope.md R7) and the free values. Every
constant here has no body: no proof can see what it is. -/

namespace Sys2Proof

/-- How many steps a clock may take: "k divides 32" (R7, D16, 41_compression.md R151). -/
abbrev UnrollFactor := { k : Nat // k ∣ 32 }

/-- The organisations of the round datapath an implementation may choose (R7, 41_compression.md R151). -/
inductive Impl where
  /-- One step per clock. -/
  | iterative
  /-- `k` consecutive steps per clock. -/
  | unrolled (k : UnrollFactor)
  /-- The round stages in series. -/
  | pipelined
  deriving DecidableEq, Repr, Inhabited

/-- OPEN parameter BASE (R7, I11): where the platform puts the window. No rule reads it: an access reaches the
engine as an offset (R51). -/
opaque Config.base : Nat

/-- OPEN parameter IMPL (R7, I12). R151: it changes only how long BUSY lasts, so no rule reads it; what each
organisation computes is Machine/Organisation.lean. -/
opaque Config.impl : Impl

/-- OPEN parameter LAT_COMPRESS (R7, R277, I13), cycles per pass count, at least 1. No rule depends on it. -/
opaque Config.latCompress : BitVec 3 → ℕ+

/-- OPEN parameter LAT_FINAL (R7, R277, I13), cycles per pass count and number of compressions, at least 1. No rule
depends on it. -/
opaque Config.latFinal : BitVec 3 → Nat → ℕ+

/-- FREE VALUE (log 4): what the n-th unspecified read returns (COUNT_LO, COUNT_HI or DIGEST0..7 while BUSY = 1):
"any 32-bit value, drawn afresh at each read" (20_memory.md R59). -/
opaque Config.freeRead : Nat → Word

/-- FREE VALUE (log 9): the working registers after a compression for a pass count other than 3, 4 and 5, of which
the spec gives none. No session has such a pass count (10_state.md R26). -/
opaque Config.workingOutside : Words8 → List Host.Cell → BitVec 3 → Words8

/-- FREE VALUE (log 10): the tailored words for a width other than 4 to 8 words, of which the spec gives none. No
session has such a width (10_state.md R26). -/
opaque Config.tailorOutside : Words8 → BitVec 4 → Words8

end Sys2Proof
end

