-- ==== Sys2Proof/Machine/State.lean ====
section
/-! DEFINITION. The state of HAVAL-CE as plain data (10_state.md), the reasons a step can stop, and the state right
after reset. -/

namespace Sys2Proof.Machine

/-- The session phase (10_state.md R24). -/
inductive Phase where
  /-- 0: no session. -/
  | idle
  /-- 1: a session is open and absorbing. -/
  | active
  /-- 2: the digest is held in DIGEST. -/
  | done
  /-- 3: the session was ended by an error; ERR holds the first error. -/
  | failed
  deriving DecidableEq, Repr

/-- The error codes 0 to 4 (60_exceptions.md R241); codes 5 to 15 are never produced (I9). -/
inductive ErrCode where
  | none
  | cfg
  | len
  | seq
  | illegal
  deriving DecidableEq, Repr

/-- The pending work of the ENGINE (10_state.md R29). -/
inductive Work where
  | none
  | running
  deriving DecidableEq, Repr

/-- `rst_n` as the engine has seen it (70_reset_and_hazards.md R270, R272). -/
inductive ResetLine where
  /-- No rising edge has yet sampled `rst_n` = 0 since power-up: the spec gives the host no step (log 8). -/
  | unapplied
  /-- `rst_n` = 0: every edge resets the engine, which performs no access (log 7). -/
  | asserted
  /-- `rst_n` = 1 after a reset: the engine runs. -/
  | released
  deriving DecidableEq, Repr

/-- A write the bus is holding with `ready` = 0: its word offset `addr[6:2]` and its value `wdata`
(20_memory.md R51, R58; log 5). -/
structure HeldWrite where
  offset : BitVec 5
  value  : Word
  deriving DecidableEq, Repr

/-- What the environment does next (00_scope.md R3; log 1). -/
inductive Event where
  /-- The HOST presents an access. -/
  | access (a : Access)
  /-- The ENGINE takes its step now, if it has work (40_commands.md R116); with none, nothing happens. -/
  | engine
  /-- A rising edge of `clk` samples `rst_n` = 0 (70_reset_and_hazards.md R270). -/
  | rstLow
  /-- `rst_n` is 1 again. -/
  | rstHigh
  deriving DecidableEq, Repr

/-- Everything the spec gives the machine, then the model's own three fields. -/
structure State where
  /-- FP[0..7] (R20). -/
  fp        : Words8
  /-- COUNT (R21). PEND is COUNT[9:3] (R23). -/
  count     : BitVec 64
  /-- BLK[0..127] (R22): the bytes that are not 0, by rising index (log 14). -/
  blk       : List Host.Cell
  /-- PHASE (R24). -/
  phase     : Phase
  /-- ERR (R25). -/
  err       : ErrCode
  /-- CFG_PASSES (R26). -/
  cfgPasses : BitVec 3
  /-- CFG_WORDS (R26). -/
  cfgWords  : BitVec 4
  /-- DATA (R27). -/
  data      : Word
  /-- DIGEST[0..7] (R28). -/
  digest    : Words8
  /-- BUSY (R29; log 12). -/
  busy      : Bool
  /-- WORK (R29; log 12). -/
  work      : Work
  /-- T[0..7] (R30). -/
  t         : Words8
  /-- The sequencer's round counter r (R30, R150). -/
  seqRound  : BitVec 3
  /-- The sequencer's step counter i (R30, R150). -/
  seqStep   : BitVec 5
  /-- `rst_n` (20_memory.md R51). -/
  rst       : ResetLine
  /-- The bus write being held, if any (20_memory.md R58). -/
  held      : Option HeldWrite
  /-- MODEL: the values the host's reads have returned, oldest first (70_reset_and_hazards.md R279; log 6). -/
  reads     : List Word
  /-- MODEL: how many unspecified reads have been made (log 4). -/
  draws     : Nat
  /-- MODEL: what the environment does next (log 1). -/
  env       : List Event
  deriving DecidableEq, Repr

/-- Why the machine stops. -/
inductive Fault where
  /-- Raised by `step`, for a host access made before reset was ever applied: the spec gives the host no step there
  (70_reset_and_hazards.md R272, I3 `stuck`; log 8). Safe: nothing is concluded about such an access. -/
  | accessBeforeReset
  deriving DecidableEq, Repr

/-- Why an instruction has no meaning. -/
inductive Refusal where
  /-- Raised by `exec`, for an instruction not modelled yet, by its mnemonic. Safe. No arm of `exec` answers it. -/
  | notModelled (mnemonic : String)
  deriving DecidableEq, Repr

/-- Eight words of 0. -/
def zeroWords8 : Words8 := Vector.replicate 8 0

/-- The machine right after reset: 10_state.md R40. The spec gives T and the sequencer no reset value; the model names
T = 0 and the position (1, 0) (DESIGN CHOICE, unsafe: logs 2, 3). The model's own fields are empty. -/
def State.reset : State where
  fp        := zeroWords8
  count     := 0
  blk       := []
  phase     := .idle
  err       := .none
  cfgPasses := 0
  cfgWords  := 0
  data      := 0
  digest    := zeroWords8
  busy      := false
  work      := .none
  t         := zeroWords8
  seqRound  := 1
  seqStep   := 0
  rst       := .released
  held      := none
  reads     := []
  draws     := 0
  env       := []

end Sys2Proof.Machine
end

