-- ==== Sys2Proof/Machine/Memory.lean ====
section
/-! DEFINITION. Byte storage as a list of (address, byte) pairs in one canonical form: addresses strictly rising, and
no entry equal to 0, which is what an unlisted address reads as (10_state.md R22: "Reset value: all bytes 0"). BLK is
the engine's only byte storage; its addresses are the indexes 0 to 127. -/

namespace Sys2Proof.Machine

/-- The byte at address `a`. -/
def Memory.read : List Host.Cell → Nat → Byte
  | [], _ => 0
  | (k, b) :: rest, a => if k = a then b else Memory.read rest a

/-- The cell `(a, b)` in front of `rest`, unless `b` is what an unlisted address reads as. -/
def Memory.cons (a : Nat) (b : Byte) (rest : List Host.Cell) : List Host.Cell :=
  if b = 0 then rest else (a, b) :: rest

/-- Byte `b` written at address `a`, in canonical form. -/
def Memory.write : List Host.Cell → Nat → Byte → List Host.Cell
  | [], a, b => Memory.cons a b []
  | (k, c) :: rest, a, b =>
    if a < k then Memory.cons a b ((k, c) :: rest)
    else if a = k then Memory.cons a b rest
    else (k, c) :: Memory.write rest a b

/-- The canonical form: addresses strictly rising and no entry 0. -/
abbrev Memory.wf (m : List Host.Cell) : Prop :=
  m.Pairwise (fun x y => x.1 < y.1) ∧ ∀ x ∈ m, x.2 ≠ 0

/-- Every listed address is an index of BLK (10_state.md R22). -/
abbrev Memory.inBlock (m : List Host.Cell) : Prop := ∀ x ∈ m, x.1 < 128

end Sys2Proof.Machine
end

