-- ==== Sys2Proof/Machine/Operands.lean ====
section
/-! DEFINITION. Operand forms: the bytes of a word, the words of BLK, the elements of an eight-word array, the
rotation, and the values a START supports. -/

namespace Sys2Proof.Machine

/-- `byte_k(w) = w[8k+7:8k]` (00_scope.md R10, 20_memory.md R53). -/
def byteOf (k : Nat) (w : Word) : Byte := w.extractLsb' (8 * k) 8

/-- The low `n` bytes of a data word, byte 0 first (20_memory.md R53). -/
def lowBytes (n : Nat) (w : Word) : List Byte := (List.range n).map (byteOf · w)

/-- `LE32(b0, b1, b2, b3) = {b3, b2, b1, b0}` (00_scope.md R10). -/
def le32 (b0 b1 b2 b3 : Byte) : Word := b3 ++ b2 ++ b1 ++ b0

/-- `rotr(a, n)` for 0 < n < 32 (00_scope.md R9). -/
def rotr (a : Word) (n : Nat) : Word := (a >>> n) ||| (a <<< (32 - n))

/-- Element `j mod 8` of an eight-word array. -/
def wordAt (v : Words8) (j : Nat) : Word := v[j % 8]'(Nat.mod_lt j (by decide))

/-- The array with element `j mod 8` written. -/
def setWordAt (v : Words8) (j : Nat) (x : Word) : Words8 := v.set (j % 8) x (Nat.mod_lt j (by decide))

/-- `BLKW[j] = LE32(BLK[4j], BLK[4j+1], BLK[4j+2], BLK[4j+3])` (10_state.md R22, 20_memory.md R54). -/
def blkWord (blk : List Host.Cell) (j : Nat) : Word :=
  le32 (Memory.read blk (4 * j)) (Memory.read blk (4 * j + 1)) (Memory.read blk (4 * j + 2))
    (Memory.read blk (4 * j + 3))

/-- PEND = COUNT[9:3] (10_state.md R23). -/
def pend (count : BitVec 64) : Nat := (count.extractLsb' 3 7).toNat

/-- The pass counts a START supports (40_commands.md R105). -/
def supportedPasses (p : BitVec 3) : Bool := p == 3 || p == 4 || p == 5

/-- The widths in words a START supports (40_commands.md R105). -/
def supportedWords (w : BitVec 4) : Bool := w == 4 || w == 5 || w == 6 || w == 7 || w == 8

/-- All 15 pairs are supported (00_scope.md R7, D17). -/
def supported (p : BitVec 3) (w : BitVec 4) : Bool := supportedPasses p && supportedWords w

end Sys2Proof.Machine
end

