-- ==== Sys2Proof/Machine/Tables.lean ====
section
/-! DEFINITION. The constant tables of 45_tables.md: the initial value, the round functions, the wire permutations,
the word orders and the round constants. The spec supplies them from general knowledge (D21; log 17). -/

namespace Sys2Proof.Machine

/-- IV[0..7] (R210). -/
def iv : Words8 :=
  #v[0x243F6A88, 0x85A308D3, 0x13198A2E, 0x03707344, 0xA4093822, 0x299F31D0, 0x082EFA98, 0xEC4E6C89]

/-! ## The Boolean functions f_1 to f_5 as XORs of AND terms, "which is the definition" (45_tables.md section 2) -/

/-- A round function of seven words, the arguments in the order (x6, x5, x4, x3, x2, x1, x0). -/
abbrev RoundFn := Word → Word → Word → Word → Word → Word → Word → Word

/-- f_1 (R211). -/
def f1 : RoundFn := fun x6 x5 x4 x3 x2 x1 x0 =>
  (x1 &&& x4) ^^^ (x2 &&& x5) ^^^ (x3 &&& x6) ^^^ (x0 &&& x1) ^^^ x0

/-- f_2 (R212). -/
def f2 : RoundFn := fun x6 x5 x4 x3 x2 x1 x0 =>
  (x1 &&& x2 &&& x3) ^^^ (x2 &&& x4 &&& x5) ^^^ (x1 &&& x2) ^^^ (x1 &&& x4) ^^^ (x2 &&& x6) ^^^ (x3 &&& x5)
    ^^^ (x4 &&& x5) ^^^ (x0 &&& x2) ^^^ x0

/-- f_3 (R213). -/
def f3 : RoundFn := fun x6 x5 x4 x3 x2 x1 x0 =>
  (x1 &&& x2 &&& x3) ^^^ (x1 &&& x4) ^^^ (x2 &&& x5) ^^^ (x3 &&& x6) ^^^ (x0 &&& x3) ^^^ x0

/-- f_4 (R214). -/
def f4 : RoundFn := fun x6 x5 x4 x3 x2 x1 x0 =>
  (x1 &&& x2 &&& x3) ^^^ (x2 &&& x4 &&& x5) ^^^ (x3 &&& x4 &&& x6) ^^^ (x1 &&& x4) ^^^ (x2 &&& x6)
    ^^^ (x3 &&& x4) ^^^ (x3 &&& x5) ^^^ (x3 &&& x6) ^^^ (x4 &&& x5) ^^^ (x4 &&& x6) ^^^ (x0 &&& x4) ^^^ x0

/-- f_5 (R215). -/
def f5 : RoundFn := fun x6 x5 x4 x3 x2 x1 x0 =>
  (x1 &&& x4) ^^^ (x2 &&& x5) ^^^ (x3 &&& x6) ^^^ (x0 &&& x1 &&& x2 &&& x3) ^^^ (x0 &&& x5) ^^^ x0

/-! ## The wire permutations (R216 to R218) -/

/-- A row `(a_6, a_5, a_4, a_3, a_2, a_1, a_0)` of φ: argument x_k of the round function receives the window word
X_{a_k} (41_compression.md R143). -/
structure WireRow where
  (a6 a5 a4 a3 a2 a1 a0 : Nat)
  deriving DecidableEq, Repr

/-- φ_{3,1} (R216). -/
def phi31 : WireRow := ⟨1, 0, 3, 5, 6, 2, 4⟩

/-- φ_{3,2} (R216). -/
def phi32 : WireRow := ⟨4, 2, 1, 0, 5, 3, 6⟩

/-- φ_{3,3} (R216). -/
def phi33 : WireRow := ⟨6, 1, 2, 3, 4, 5, 0⟩

/-- φ_{4,1} (R217). -/
def phi41 : WireRow := ⟨2, 6, 1, 4, 5, 3, 0⟩

/-- φ_{4,2} (R217). -/
def phi42 : WireRow := ⟨3, 5, 2, 0, 1, 6, 4⟩

/-- φ_{4,3} (R217). -/
def phi43 : WireRow := ⟨1, 4, 3, 6, 0, 2, 5⟩

/-- φ_{4,4} (R217). -/
def phi44 : WireRow := ⟨6, 4, 0, 5, 2, 1, 3⟩

/-- φ_{5,1} (R218). -/
def phi51 : WireRow := ⟨3, 4, 1, 0, 5, 2, 6⟩

/-- φ_{5,2} (R218). -/
def phi52 : WireRow := ⟨6, 2, 1, 0, 3, 4, 5⟩

/-- φ_{5,3} (R218). -/
def phi53 : WireRow := ⟨2, 6, 0, 4, 3, 1, 5⟩

/-- φ_{5,4} (R218). -/
def phi54 : WireRow := ⟨1, 5, 3, 2, 0, 4, 6⟩

/-- φ_{5,5} (R218). -/
def phi55 : WireRow := ⟨2, 5, 0, 6, 4, 3, 1⟩

/-! ## The word orders: at position i, the index of the block word step i reads (R219 to R222) -/

/-- ord_1: "natural order" (41_compression.md R146). -/
def ord1 : List Nat := List.range 32

/-- ord_2 (R219). -/
def ord2 : List Nat :=
  [5, 14, 26, 18, 11, 28, 7, 16, 0, 23, 20, 22, 1, 10, 4, 8] ++
  [30, 3, 21, 9, 17, 24, 29, 6, 19, 12, 15, 13, 2, 25, 31, 27]

/-- ord_3 (R220). -/
def ord3 : List Nat :=
  [19, 9, 4, 20, 28, 17, 8, 22, 29, 14, 25, 12, 24, 30, 16, 26] ++
  [31, 15, 7, 3, 1, 0, 18, 27, 13, 6, 21, 10, 23, 11, 5, 2]

/-- ord_4 (R221). -/
def ord4 : List Nat :=
  [24, 4, 0, 14, 2, 7, 28, 23, 26, 6, 30, 20, 18, 25, 19, 3] ++
  [22, 11, 31, 21, 8, 27, 12, 9, 1, 29, 5, 15, 17, 10, 16, 13]

/-- ord_5 (R222). -/
def ord5 : List Nat :=
  [27, 3, 21, 26, 17, 11, 20, 29, 19, 0, 12, 7, 13, 8, 31, 10] ++
  [5, 9, 14, 30, 18, 6, 28, 24, 2, 23, 16, 22, 4, 1, 25, 15]

/-! ## The round constants (R223 to R226) -/

/-- K_1(i) = 0 for every i (41_compression.md R144). -/
def k1 : List Word := List.replicate 32 0

/-- K_2 (R223). -/
def k2 : List Word :=
  [0x452821E6, 0x38D01377, 0xBE5466CF, 0x34E90C6C, 0xC0AC29B7, 0xC97C50DD, 0x3F84D5B5, 0xB5470917] ++
  [0x9216D5D9, 0x8979FB1B, 0xD1310BA6, 0x98DFB5AC, 0x2FFD72DB, 0xD01ADFB7, 0xB8E1AFED, 0x6A267E96] ++
  [0xBA7C9045, 0xF12C7F99, 0x24A19947, 0xB3916CF7, 0x0801F2E2, 0x858EFC16, 0x636920D8, 0x71574E69] ++
  [0xA458FEA3, 0xF4933D7E, 0x0D95748F, 0x728EB658, 0x718BCD58, 0x82154AEE, 0x7B54A41D, 0xC25A59B5]

/-- K_3 (R224). -/
def k3 : List Word :=
  [0x9C30D539, 0x2AF26013, 0xC5D1B023, 0x286085F0, 0xCA417918, 0xB8DB38EF, 0x8E79DCB0, 0x603A180E] ++
  [0x6C9E0E8B, 0xB01E8A3E, 0xD71577C1, 0xBD314B27, 0x78AF2FDA, 0x55605C60, 0xE65525F3, 0xAA55AB94] ++
  [0x57489862, 0x63E81440, 0x55CA396A, 0x2AAB10B6, 0xB4CC5C34, 0x1141E8CE, 0xA15486AF, 0x7C72E993] ++
  [0xB3EE1411, 0x636FBC2A, 0x2BA9C55D, 0x741831F6, 0xCE5C3E16, 0x9B87931E, 0xAFD6BA33, 0x6C24CF5C]

/-- K_4 (R225). -/
def k4 : List Word :=
  [0x7A325381, 0x28958677, 0x3B8F4898, 0x6B4BB9AF, 0xC4BFE81B, 0x66282193, 0x61D809CC, 0xFB21A991] ++
  [0x487CAC60, 0x5DEC8032, 0xEF845D5D, 0xE98575B1, 0xDC262302, 0xEB651B88, 0x23893E81, 0xD396ACC5] ++
  [0x0F6D6FF3, 0x83F44239, 0x2E0B4482, 0xA4842004, 0x69C8F04A, 0x9E1F9B5E, 0x21C66842, 0xF6E96C9A] ++
  [0x670C9C61, 0xABD388F0, 0x6A51A0D2, 0xD8542F68, 0x960FA728, 0xAB5133A3, 0x6EEF0B6C, 0x137A3BE4]

/-- K_5 (R226). -/
def k5 : List Word :=
  [0xBA3BF050, 0x7EFB2A98, 0xA1F1651D, 0x39AF0176, 0x66CA593E, 0x82430E88, 0x8CEE8619, 0x456F9FB4] ++
  [0x7D84A5C3, 0x3B8B5EBE, 0xE06F75D8, 0x85C12073, 0x401A449F, 0x56C16AA6, 0x4ED3AA62, 0x363F7706] ++
  [0x1BFEDF72, 0x429B023D, 0x37D0D724, 0xD00A1248, 0xDB0FEAD3, 0x49F1C09B, 0x075372C9, 0x80991B7B] ++
  [0x25D479D8, 0xF6E8DEF7, 0xE3FE501A, 0xB6794C3B, 0x976CE0BD, 0x04C006BA, 0xC1A94FB6, 0x409F60C4]

/-! ## Table selection (R145, R228) -/

/-- The tables of one round: the function, the wire permutation, the word order, the constants. -/
structure RoundTable where
  fn  : RoundFn
  phi : WireRow
  ord : List Nat
  k   : List Word

/-- The rounds 1 to p of a compression for pass count `p` (R145, R228); a pass count that no session has gets none. -/
def roundTables (p : BitVec 3) : List RoundTable :=
  if p = 3 then [⟨f1, phi31, ord1, k1⟩, ⟨f2, phi32, ord2, k2⟩, ⟨f3, phi33, ord3, k3⟩]
  else if p = 4 then
    [⟨f1, phi41, ord1, k1⟩, ⟨f2, phi42, ord2, k2⟩, ⟨f3, phi43, ord3, k3⟩, ⟨f4, phi44, ord4, k4⟩]
  else if p = 5 then
    [⟨f1, phi51, ord1, k1⟩, ⟨f2, phi52, ord2, k2⟩, ⟨f3, phi53, ord3, k3⟩, ⟨f4, phi54, ord4, k4⟩] ++
    [⟨f5, phi55, ord5, k5⟩]
  else []

end Sys2Proof.Machine
end

