-- ==== Sys2Proof/Machine/Compress.lean ====
section
/-! DEFINITION. The block compression datapath (41_compression.md). -/

namespace Sys2Proof.Machine

/-- The register step i writes, `o = 7 − (i mod 8)` (R141). -/
def outIndex (i : Nat) : Nat := 7 - i % 8

/-- The window word `X_k = T[(o + 1 + k) mod 8]` (R142). -/
def windowWord (t : Words8) (o k : Nat) : Word := wordAt t (o + 1 + k)

/-- `f_r(X_{a_6}, ..., X_{a_0})` over a window (R143). -/
def applyRow (f : RoundFn) (row : WireRow) (x : Nat → Word) : Word :=
  f (x row.a6) (x row.a5) (x row.a4) (x row.a3) (x row.a2) (x row.a1) (x row.a0)

/-- `rotr(F, 7) + rotr(T[o], 11) + W[ord_r(i)] + K_r(i)` modulo 2^32 (R144), for the round's value `f` of the round
function and the old output word `old`. The orders and constants have 32 entries, and i < 32. -/
def newWord (r : RoundTable) (w : Nat → Word) (i : Nat) (f old : Word) : Word :=
  rotr f 7 + rotr old 11 + w (r.ord.getD i 0) + r.k.getD i 0

/-- `Step(r, i)` (R144). -/
def roundStep (r : RoundTable) (w : Nat → Word) (t : Words8) (i : Nat) : Words8 :=
  let o := outIndex i
  setWordAt t o (newWord r w i (applyRow r.fn r.phi (windowWord t o)) (wordAt t o))

/-- The 32 steps of one round (R140). -/
def runRound (w : Nat → Word) (t : Words8) (r : RoundTable) : Words8 := (List.range 32).foldl (roundStep r w) t

/-- T after the p rounds over the block words `w`, from T = FP (R140). -/
def runRounds (w : Nat → Word) (p : BitVec 3) (fp : Words8) : Words8 := (roundTables p).foldl (runRound w) fp

/-- T at the end of a compression of the block `blk` for pass count `p`; a free value for a pass count of which the
spec gives no compression (log 9). -/
def working (fp : Words8) (blk : List Host.Cell) (p : BitVec 3) : Words8 :=
  if supportedPasses p then runRounds (blkWord blk) p fp else Config.workingOutside fp blk p

/-- Element-wise addition modulo 2^32 (R147). -/
def addWords8 (a b : Words8) : Words8 := Vector.zipWith (· + ·) a b

/-- `Compress(FP, BLKW, p)` (R140): FP'[j] = FP[j] + T[j]. -/
def compress (fp : Words8) (blk : List Host.Cell) (p : BitVec 3) : Words8 := addWords8 fp (working fp blk p)

end Sys2Proof.Machine
end

