-- ==== Sys2Proof/Machine/Flags.lean ====
section
/-! DEFINITION. The status flags and the words the host reads them in (10_state.md R33, R34). The engine has no
condition codes (R30). -/

namespace Sys2Proof.Machine

/-- The 2-bit encoding of PHASE (10_state.md R24). -/
def phaseBits : Phase → BitVec 2
  | .idle => 0
  | .active => 1
  | .done => 2
  | .failed => 3

/-- The 4-bit encoding of ERR (60_exceptions.md R241). -/
def errBits : ErrCode → BitVec 4
  | .none => 0
  | .cfg => 1
  | .len => 2
  | .seq => 3
  | .illegal => 4

/-- What STATUS reads: 0x00000003 during the BUSY interval (20_memory.md R59), and otherwise
`zext_32({ERR, 0b0, PHASE, BUSY})` (10_state.md R33) with BUSY = 0. -/
def statusWord (s : State) : Word :=
  if s.busy then 0x00000003
  else (errBits s.err ++ (0 : BitVec 1) ++ phaseBits s.phase ++ BitVec.ofBool s.busy).setWidth 32

/-- What CONFIG reads: `zext_32({CFG_WORDS, 0b0, CFG_PASSES, 0x00})` (10_state.md R34). -/
def configWord (s : State) : Word :=
  (s.cfgWords ++ (0 : BitVec 1) ++ s.cfgPasses ++ (0 : BitVec 8)).setWidth 32

end Sys2Proof.Machine
end

