-- ==== Sys2Proof/Machine/Padding.lean ====
section
/-! DEFINITION. The padding and length-encoding unit's bytes (42_padding.md). -/

namespace Sys2Proof.Machine

/-- The number of padding bytes for `rmd` pending bytes (R171). -/
def padLength (rmd : Nat) : Nat := if rmd < 118 then 118 - rmd else 246 - rmd

/-- The padding: 0x01, then zeros (R172). -/
def padding (rmd : Nat) : List Byte := 0x01 :: List.replicate (padLength rmd - 1) 0x00

/-- VERSION = 1 (R176). -/
def version : BitVec 3 := 1

/-- FPTLEN = 32 × CFG_WORDS (R173). -/
def fptlen (w : BitVec 4) : BitVec 10 := 32 * w.setWidth 10

/-- `TAIL[0] = {FPTLEN[1:0], PASSES, VERSION}` (R173). -/
def tailByte0 (p : BitVec 3) (w : BitVec 4) : Byte := (fptlen w).extractLsb' 0 2 ++ p ++ version

/-- `TAIL[1] = FPTLEN[9:2]` (R174). -/
def tailByte1 (w : BitVec 4) : Byte := (fptlen w).extractLsb' 2 8

/-- `byte_k(C)` of a 64-bit count (R175). -/
def countByte (k : Nat) (c : BitVec 64) : Byte := c.extractLsb' (8 * k) 8

/-- TAIL[0..9] for the pre-padding bit count `c` (R173 to R175). -/
def tailBytes (p : BitVec 3) (w : BitVec 4) (c : BitVec 64) : List Byte :=
  [tailByte0 p w, tailByte1 w] ++ (List.range 8).map (countByte · c)

end Sys2Proof.Machine
end

