-- ==== Sys2Proof/Machine/Tailor.lean ====
section
/-! DEFINITION. Output tailoring and the output multiplexer (43_tailoring.md). -/

namespace Sys2Proof.Machine

/-- The 128-bit table (R191). -/
def tailor4 (f : Words8) : Words8 :=
  let t0 := (wordAt f 7 &&& 0x000000FF) ||| (wordAt f 6 &&& 0xFF000000) ||| (wordAt f 5 &&& 0x00FF0000)
    ||| (wordAt f 4 &&& 0x0000FF00)
  let t1 := (wordAt f 7 &&& 0x0000FF00) ||| (wordAt f 6 &&& 0x000000FF) ||| (wordAt f 5 &&& 0xFF000000)
    ||| (wordAt f 4 &&& 0x00FF0000)
  let t2 := (wordAt f 7 &&& 0x00FF0000) ||| (wordAt f 6 &&& 0x0000FF00) ||| (wordAt f 5 &&& 0x000000FF)
    ||| (wordAt f 4 &&& 0xFF000000)
  let t3 := (wordAt f 7 &&& 0xFF000000) ||| (wordAt f 6 &&& 0x00FF0000) ||| (wordAt f 5 &&& 0x0000FF00)
    ||| (wordAt f 4 &&& 0x000000FF)
  #v[wordAt f 0 + rotr t0 8, wordAt f 1 + rotr t1 16, wordAt f 2 + rotr t2 24, wordAt f 3 + t3,
    wordAt f 4, wordAt f 5, wordAt f 6, wordAt f 7]

/-- The 160-bit table (R192). -/
def tailor5 (f : Words8) : Words8 :=
  let t0 := (wordAt f 7 &&& 0x0000003F) ||| (wordAt f 6 &&& 0xFE000000) ||| (wordAt f 5 &&& 0x01F80000)
  let t1 := (wordAt f 7 &&& 0x00000FC0) ||| (wordAt f 6 &&& 0x0000003F) ||| (wordAt f 5 &&& 0xFE000000)
  let t2 := (wordAt f 7 &&& 0x0007F000) ||| (wordAt f 6 &&& 0x00000FC0) ||| (wordAt f 5 &&& 0x0000003F)
  let t3 := (wordAt f 7 &&& 0x01F80000) ||| (wordAt f 6 &&& 0x0007F000) ||| (wordAt f 5 &&& 0x00000FC0)
  let t4 := (wordAt f 7 &&& 0xFE000000) ||| (wordAt f 6 &&& 0x01F80000) ||| (wordAt f 5 &&& 0x0007F000)
  #v[wordAt f 0 + rotr t0 19, wordAt f 1 + rotr t1 25, wordAt f 2 + t2, wordAt f 3 + (t3 >>> 6),
    wordAt f 4 + (t4 >>> 12), wordAt f 5, wordAt f 6, wordAt f 7]

/-- The 192-bit table (R193). -/
def tailor6 (f : Words8) : Words8 :=
  let t0 := (wordAt f 7 &&& 0x0000001F) ||| (wordAt f 6 &&& 0xFC000000)
  let t1 := (wordAt f 7 &&& 0x000003E0) ||| (wordAt f 6 &&& 0x0000001F)
  let t2 := (wordAt f 7 &&& 0x0000FC00) ||| (wordAt f 6 &&& 0x000003E0)
  let t3 := (wordAt f 7 &&& 0x001F0000) ||| (wordAt f 6 &&& 0x0000FC00)
  let t4 := (wordAt f 7 &&& 0x03E00000) ||| (wordAt f 6 &&& 0x001F0000)
  let t5 := (wordAt f 7 &&& 0xFC000000) ||| (wordAt f 6 &&& 0x03E00000)
  #v[wordAt f 0 + rotr t0 26, wordAt f 1 + t1, wordAt f 2 + (t2 >>> 5), wordAt f 3 + (t3 >>> 10),
    wordAt f 4 + (t4 >>> 16), wordAt f 5 + (t5 >>> 21), wordAt f 6, wordAt f 7]

/-- The 224-bit table (R194). -/
def tailor7 (f : Words8) : Words8 :=
  #v[wordAt f 0 + ((wordAt f 7 >>> 27) &&& 0x1F), wordAt f 1 + ((wordAt f 7 >>> 22) &&& 0x1F),
    wordAt f 2 + ((wordAt f 7 >>> 18) &&& 0x0F), wordAt f 3 + ((wordAt f 7 >>> 13) &&& 0x1F),
    wordAt f 4 + ((wordAt f 7 >>> 9) &&& 0x0F), wordAt f 5 + ((wordAt f 7 >>> 4) &&& 0x1F),
    wordAt f 6 + (wordAt f 7 &&& 0x0F), wordAt f 7]

/-- `Tailor(FP, w)` (R190); a free value for a width of which the spec gives no table (log 10). -/
def tailor (f : Words8) (w : BitVec 4) : Words8 :=
  if w = 4 then tailor4 f
  else if w = 5 then tailor5 f
  else if w = 6 then tailor6 f
  else if w = 7 then tailor7 f
  else if w = 8 then f
  else Config.tailorOutside f w

/-- The output multiplexer: D_i for i < w and 0 for the rest (R195). -/
def digestMux (d : Words8) (w : BitVec 4) : Words8 :=
  Vector.ofFn (fun i : Fin 8 => if i.val < w.toNat then wordAt d i.val else 0)

/-- Output byte `n` of the digest, `byte_{n mod 4}(DIGEST[n div 4])` (R196, 20_memory.md R55). -/
def digestByte (digest : Words8) (n : Nat) : Byte := byteOf (n % 4) (wordAt digest (n / 4))

end Sys2Proof.Machine
end

