-- ==== Sys2Proof/Machine/Ops.lean ====
section
/-! DEFINITION. The operations the instructions share: the absorb path, the error entry, clearing a session, the
ENGINE's work and step, the stall of a bus write, register reads, reset. -/

namespace Sys2Proof.Machine

/-! ## Sessions and errors -/

/-- `ClearSession()` (40_commands.md R103). -/
def clearSession (s : State) : State := { s with fp := zeroWords8, count := 0, blk := [] }

/-- `Fail(code)`, the one error entry (60_exceptions.md R248): the first code is kept (R247), the session, DIGEST and
the configuration are cleared. DATA, BUSY and WORK are not written. -/
def fail (code : ErrCode) (s : State) : State :=
  { clearSession s with
    err := if s.err = .none then code else s.err
    phase := .failed
    digest := zeroWords8
    cfgPasses := 0
    cfgWords := 0 }

/-- `WORK <- RUNNING; BUSY <- 1` (40_commands.md R101, R107). -/
def startWork (s : State) : State := { s with work := .running, busy := true }

/-! ## The absorb path -/

/-- The compression of a full block (40_commands.md R101): FP, and the hidden T and sequencer, which ends at step
(p, 31) (41_compression.md R148, R150; log 3). -/
def compressBlock (s : State) : State :=
  { startWork s with
    fp := compress s.fp s.blk s.cfgPasses
    t := working s.fp s.blk s.cfgPasses
    seqRound := s.cfgPasses
    seqStep := 31 }

/-- `AbsorbByte(b)` (40_commands.md R101). -/
def absorbByte (s : State) (b : Byte) : State :=
  let s' := { s with blk := Memory.write s.blk (pend s.count) b, count := s.count + 8 }
  if pend s.count = 127 then compressBlock s' else s'

/-- `AbsorbBytes(b_0, ..., b_{m-1})` (40_commands.md R102). The length check is exact, not modulo 2^64. -/
def absorbBytes (bs : List Byte) (s : State) : State :=
  if s.phase ≠ .active then fail .seq s
  else if s.count.toNat + 8 * bs.length > 2 ^ 64 - 1 then fail .len s
  else bs.foldl absorbByte s

/-- `PadAndTail()` (42_padding.md R170), through the unchecked absorb path (R177). -/
def padAndTail (s : State) : State :=
  (padding (pend s.count) ++ tailBytes s.cfgPasses s.cfgWords s.count).foldl absorbByte s

/-! ## The bus -/

/-- A CTRL or MSG write is held, neither lost nor reordered (20_memory.md R58; log 5). -/
def hold (offset : BitVec 5) (v : Word) (s : State) : State := { s with held := some ⟨offset, v⟩ }

/-- A write of `v` at a word offset that stalls: held while BUSY = 1, accepted with effect `effect` otherwise
(20_memory.md R58). -/
def whenAccepted (offset : BitVec 5) (v : Word) (effect : State → State) (s : State) : State :=
  if s.busy then hold offset v s else effect s

/-- The word offset of CTRL (10_state.md R32). -/
def ctrlOffset : BitVec 5 := 0

/-- The word offset of MSG (10_state.md R36). -/
def msgOffset : BitVec 5 := 4

/-- What a read at a word offset returns outside a BUSY interval, and for STATUS, CONFIG, DATA and the offsets that
read 0 inside one too (10_state.md R32 to R39, 40_commands.md R111). -/
def readRegister (a : BitVec 5) (s : State) : Word :=
  if a = 1 then statusWord s
  else if a = 2 then configWord s
  else if a = 3 then s.data
  else if a = 5 then s.count.extractLsb' 0 32
  else if a = 6 then s.count.extractLsb' 32 32
  else if 8 ≤ a.toNat ∧ a.toNat < 16 then (if s.phase = .done then wordAt s.digest (a.toNat - 8) else 0)
  else 0

/-- The offsets whose value is unspecified while BUSY = 1: COUNT_LO, COUNT_HI, DIGEST0..7 (20_memory.md R59). -/
def unspecifiedWhileBusy (a : BitVec 5) : Bool := a == 5 || a == 6 || decide (8 ≤ a.toNat ∧ a.toNat < 16)

/-- A read returns `v` to the host. -/
def returnRead (v : Word) (s : State) : State := { s with reads := s.reads ++ [v] }

/-- A read at a word offset (40_commands.md R111): a free value, fresh at each read, where the spec leaves it
unspecified (20_memory.md R59; log 4). -/
def busRead (a : BitVec 5) (s : State) : State :=
  if s.busy && unspecifiedWhileBusy a then { returnRead (Config.freeRead s.draws) s with draws := s.draws + 1 }
  else returnRead (readRegister a s) s

/-! ## The ENGINE -/

/-- The ENGINE's step: `WORK <- NONE; BUSY <- 0` (40_commands.md R116). -/
def engineStep (s : State) : State := { s with work := .none, busy := false }

/-- The ENGINE's turn: it steps exactly when WORK = RUNNING (40_commands.md R116). -/
def engineTurn (s : State) : State := if s.work = .running then engineStep s else s

/-! ## Reset -/

/-- A rising edge with `rst_n` = 0 (70_reset_and_hazards.md R270): every piece of the engine's state takes its reset
value, and a held access is discarded. What the environment has seen and will do is not the engine's (log 7). -/
def resetEdge (s : State) : State :=
  { State.reset with rst := .asserted, reads := s.reads, draws := s.draws, env := s.env }

/-- `rst_n` is 1 again: the engine runs, if it has been reset (R270, R272; logs 7, 8). -/
def releaseReset (s : State) : State := if s.rst = .asserted then { s with rst := .released } else s

/-- Is an access a read? -/
def isRead : Access → Bool
  | .cmd _ => false
  | .read _ => true
  | .write _ _ => false

/-- An access while `rst_n` = 0 (R270): the engine performs none, a read returns 0, a write is discarded (log 7). -/
def accessInReset (a : Access) (s : State) : State := if isRead a then returnRead 0 s else s

end Sys2Proof.Machine
end

