-- ==== Sys2Proof/Machine/Command.lean ====
section
/-! DEFINITION. The five commands written to CTRL (40_commands.md section 2). Each is a CTRL write and stalls while
BUSY = 1 (20_memory.md R58); held, it is the CTRL write of its word. -/

namespace Sys2Proof.Machine

/-- The effect of NOP (R104): none. -/
def nopEffect (s : State) : State := s

/-- The effect of START p, w (R105): CFG for an unsupported pair, else a fresh session. -/
def startEffect (p : BitVec 3) (w : BitVec 4) (s : State) : State :=
  let s' := { s with err := .none, digest := zeroWords8 }
  if supported p w then
    { s' with cfgPasses := p, cfgWords := w, fp := iv, count := 0, blk := [], phase := .active }
  else fail .cfg s'

/-- The effect of ABSORB nb (R106): the nb low bytes of DATA as it is at acceptance (70_reset_and_hazards.md R276).
NB = 5 to 7 encodes no command: the word is illegal (30_encoding.md R85; log 11). -/
def absorbEffect (nb : BitVec 3) (s : State) : State :=
  if nb.toNat ≤ 4 then absorbBytes (lowBytes nb.toNat s.data) s else fail .illegal s

/-- The effect of FINAL (R107): padding and tail, tailoring, the digest load, clearing; or SEQ outside ACTIVE. -/
def finalEffect (s : State) : State :=
  if s.phase ≠ .active then fail .seq s
  else
    let s' := padAndTail s
    startWork { clearSession s' with
      digest := digestMux (tailor s'.fp s'.cfgWords) s'.cfgWords
      phase := .done }

/-- The effect of ABORT (R108). -/
def abortEffect (s : State) : State :=
  { clearSession s with digest := zeroWords8, cfgPasses := 0, cfgWords := 0, err := .none, phase := .idle }

/-- NOP (R104). -/
def execNop (s : State) : Host.Outcome State Fault Refusal :=
  .next (whenAccepted ctrlOffset 0x00000000 nopEffect s)

/-- START p, w (R105). -/
def execStart (p : BitVec 3) (w : BitVec 4) (s : State) : Host.Outcome State Fault Refusal :=
  .next (whenAccepted ctrlOffset (startWord p w) (startEffect p w) s)

/-- ABSORB nb (R106). -/
def execAbsorb (nb : BitVec 3) (s : State) : Host.Outcome State Fault Refusal :=
  .next (whenAccepted ctrlOffset (absorbWord nb) (absorbEffect nb) s)

/-- FINAL (R107). -/
def execFinal (s : State) : Host.Outcome State Fault Refusal :=
  .next (whenAccepted ctrlOffset 0x00000003 finalEffect s)

/-- ABORT (R108). -/
def execAbort (s : State) : Host.Outcome State Fault Refusal :=
  .next (whenAccepted ctrlOffset 0x00000004 abortEffect s)

end Sys2Proof.Machine
end

