-- ==== Sys2Proof/Machine/Bus.lean ====
section
/-! DEFINITION. The five bus accesses (40_commands.md sections 1 and 3). -/

namespace Sys2Proof.Machine

/-- The dispatch of an accepted CTRL write (R100): ILLEGAL for a word that is not well-formed, else the command that
OP names. -/
def ctrlEffect (v : Word) (s : State) : State :=
  if !wellFormedWord v then fail .illegal s
  else if opField v = 0 then nopEffect s
  else if opField v = 1 then startEffect (passesField v) (wordsField v) s
  else if opField v = 2 then absorbEffect (nbField v) s
  else if opField v = 3 then finalEffect s
  else abortEffect s

/-- WR_CTRL v (R100): accepted only when BUSY = 0. -/
def execWrCtrl (v : Word) (s : State) : Host.Outcome State Fault Refusal :=
  .next (whenAccepted ctrlOffset v (ctrlEffect v) s)

/-- WR_DATA v (R109): it never stalls. -/
def execWrData (v : Word) (s : State) : Host.Outcome State Fault Refusal := .next { s with data := v }

/-- WR_MSG v (R110): the four bytes of v, least significant first; accepted only when BUSY = 0. -/
def execWrMsg (v : Word) (s : State) : Host.Outcome State Fault Refusal :=
  .next (whenAccepted msgOffset v (absorbBytes (lowBytes 4 v)) s)

/-- WR_IGNORED (R112): no effect, no error, no stall. -/
def execWrIgnored (_a : BitVec 5) (_v : Word) (s : State) : Host.Outcome State Fault Refusal := .next s

/-- RD (R111): it never stalls and changes no state of the engine. -/
def execRd (a : BitVec 5) (s : State) : Host.Outcome State Fault Refusal := .next (busRead a s)

end Sys2Proof.Machine
end

