-- ==== Sys2Proof/Machine/Dispatch.lean ====
section
/-! DEFINITION. One arm per instruction, each a call of its meaning. -/

namespace Sys2Proof.Machine

def exec (i : Instr) (s : State) : Host.Outcome State Fault Refusal :=
  match i with
  | .nop => Sys2Proof.Machine.execNop s
  | .start passes words => Sys2Proof.Machine.execStart passes words s
  | .absorb nb => Sys2Proof.Machine.execAbsorb nb s
  | .final => Sys2Proof.Machine.execFinal s
  | .abort => Sys2Proof.Machine.execAbort s
  | .wrCtrl v => Sys2Proof.Machine.execWrCtrl v s
  | .wrData v => Sys2Proof.Machine.execWrData v s
  | .wrMsg v => Sys2Proof.Machine.execWrMsg v s
  | .wrIgnored a v => Sys2Proof.Machine.execWrIgnored a v s
  | .rd a => Sys2Proof.Machine.execRd a s

end Sys2Proof.Machine
end

