-- ==== Sys2Proof/Machine/Schedule.lean ====
section
/-! DEFINITION. Who moves next: the HOST, the ENGINE or reset (00_scope.md R3, 20_memory.md R58, R63,
40_commands.md R116, 70_reset_and_hazards.md R270, R272; logs 1, 5, 7, 8). -/

namespace Sys2Proof.Machine

/-- The instruction of a held write: the bus still presents it, and decoding does not depend on the state
(30_encoding.md R86). -/
def heldInstr (h : HeldWrite) : Instr := decodeBus ((1 : BitVec 1) ++ h.offset) h.value

/-- Before the first reset (R272, I3): an access is stuck; nothing else happens. -/
def advanceUnapplied (s : State) : Host.Outcome State Fault Refusal :=
  match s.env with
  | .access _ :: _ => .fault .accessBeforeReset
  | _ :: rest => .next { s with env := rest }
  | [] => .next s

/-- While `rst_n` = 0 (R270): every edge resets the engine, which performs no access. -/
def advanceInReset (s : State) : Host.Outcome State Fault Refusal :=
  match s.env with
  | .access a :: rest => .next (accessInReset a (resetEdge { s with env := rest }))
  | _ :: rest => .next (resetEdge { s with env := rest })
  | [] => .next (resetEdge s)

/-- While the engine runs. A held write waits for BUSY = 0 and is then performed, and no later access starts before it
(R3: one at a time). Otherwise the environment's next event is taken; with none left the ENGINE completes its work,
and with no work the engine holds its state (60_exceptions.md R256). -/
def advanceRunning (s : State) : Host.Outcome State Fault Refusal :=
  match s.held with
  | some h => if s.busy then .next (engineTurn s) else exec (heldInstr h) { s with held := none }
  | none =>
    match s.env with
    | .access a :: rest => exec (instrOf a) { s with env := rest }
    | _ :: rest => .next (engineTurn { s with env := rest })
    | [] => .next (engineTurn s)

/-- One step of the machine: a change of `rst_n` comes before anything else. -/
def advance (s : State) : Host.Outcome State Fault Refusal :=
  match s.env with
  | .rstLow :: rest => .next (resetEdge { s with env := rest })
  | .rstHigh :: rest => .next (releaseReset { s with env := rest })
  | _ =>
    match s.rst with
    | .unapplied => advanceUnapplied s
    | .asserted => advanceInReset s
    | .released => advanceRunning s

/-- The access `a` is the next thing that happens: it is the environment's next event, the engine runs, and no
earlier write occupies the bus. -/
def presentAccess (a : Access) (s : State) : State :=
  { s with env := .access a :: s.env, rst := .released, held := none }

end Sys2Proof.Machine
end

