-- ==== Sys2Proof/Machine/Step.lean ====
section
/-! DEFINITION. The step, and the placing of an instruction as the next one. -/

namespace Sys2Proof.Machine

/-- One step of the machine (Machine/Schedule.lean). -/
def step (s : State) : Host.Outcome State Fault Refusal := advance s

/-- `s` with the access of the table word `w` of `nbits` bits as the host's next access (log 1). Bits that are no
access leave `s` as it is. -/
def State.withFetchWord (s : State) (nbits w : Nat) : State :=
  match accessOfTableWord nbits w with
  | none => s
  | some a => presentAccess a s

end Sys2Proof.Machine
end

