-- ==== Sys2Proof/Machine/Organisation.lean ====
section
/-! DEFINITION. The hardware organisations of the round datapath that 41_compression.md section 2 describes, beside
the definition of Compress: the shift-register form, the sequencer, k steps per clock. They are what an
implementation may build; `compress` is what the machine uses. -/

namespace Sys2Proof.Machine

/-! ## The shift-register form (R149) -/

/-- One step: `S <- (new, S[0], ..., S[6])` (R149). -/
def shiftStep (r : RoundTable) (w : Nat → Word) (s : Words8) (i : Nat) : Words8 :=
  #v[newWord r w i (applyRow r.fn r.phi (wordAt s)) (wordAt s 7), wordAt s 0, wordAt s 1, wordAt s 2, wordAt s 3,
    wordAt s 4, wordAt s 5, wordAt s 6]

/-- The p rounds of 32 steps in the shift-register form (R149). -/
def shiftRounds (w : Nat → Word) (p : BitVec 3) (fp : Words8) : Words8 :=
  (roundTables p).foldl (fun s r => (List.range 32).foldl (shiftStep r w) s) fp

/-! ## The sequencer (R150) -/

/-- The datapath between two steps: T, the round counter r, the step counter i, and whether step (p, 31) is over. -/
structure Sequencer where
  t       : Words8
  round   : BitVec 3
  step    : BitVec 5
  stopped : Bool
  deriving DecidableEq, Repr

/-- The start of a compression: T = FP and (r, i) = (1, 0) (R140, R150). -/
def seqStart (fp : Words8) : Sequencer := { t := fp, round := 1, step := 0, stopped := false }

/-- One step of the sequencer: it performs Step(r, i) with the tables r selects, then advances i, which wraps from 31
to 0 while r is incremented; it stops after (p, 31) (10_state.md R30, R150; log 3). -/
def seqNext (w : Nat → Word) (p : BitVec 3) (q : Sequencer) : Sequencer :=
  if q.stopped then q
  else
    match (roundTables p)[q.round.toNat - 1]? with
    | none => { q with stopped := true }
    | some r =>
      let t := roundStep r w q.t q.step.toNat
      if q.step = 31 then
        if q.round = p then { q with t := t, stopped := true }
        else { q with t := t, round := q.round + 1, step := 0 }
      else { q with t := t, step := q.step + 1 }

/-- `n` steps of the sequencer. -/
def seqRun (w : Nat → Word) (p : BitVec 3) : Nat → Sequencer → Sequencer
  | 0, q => q
  | n + 1, q => seqRun w p n (seqNext w p q)

/-! ## k steps per clock (R151) -/

/-- One clock of UNROLLED(k): steps k·c to k·c + k − 1 (R151). -/
def unrolledClock (k : Nat) (r : RoundTable) (w : Nat → Word) (t : Words8) (c : Nat) : Words8 :=
  (List.range k).foldl (fun t j => roundStep r w t (k * c + j)) t

/-- The p rounds, each of 32/k clocks of k steps (R151); ITERATIVE is k = 1. -/
def unrolledRounds (k : Nat) (w : Nat → Word) (p : BitVec 3) (fp : Words8) : Words8 :=
  (roundTables p).foldl (fun t r => (List.range (32 / k)).foldl (unrolledClock k r w) t) fp

/-! ## The organisation IMPL names (R151) -/

/-- PIPELINED: one stage per round, the stages in series (R151). -/
def pipelinedRounds (w : Nat → Word) (p : BitVec 3) (fp : Words8) : Words8 :=
  ((roundTables p).map fun r t => runRound w t r).foldl (fun t stage => stage t) fp

/-- The p rounds as the organisation `impl` performs them (R151). -/
def organisedRounds (impl : Impl) (w : Nat → Word) (p : BitVec 3) (fp : Words8) : Words8 :=
  match impl with
  | .iterative => unrolledRounds 1 w p fp
  | .unrolled k => unrolledRounds k.val w p fp
  | .pipelined => pipelinedRounds w p fp

end Sys2Proof.Machine
end

