-- ==== Sys2Proof/Safety.lean ====
section
/-! DEFINITION. What counts as a good state and a good run, in the terms the claims use. -/

namespace Sys2Proof.Machine

/-- What the spec says of every state a run reaches. -/
structure Inv (s : State) : Prop where
  /-- BLK is in canonical form. -/
  blkWf : Memory.wf s.blk
  /-- BLK has 128 bytes (10_state.md R22). -/
  blkRange : Memory.inBlock s.blk
  /-- BUSY = 1 exactly while WORK = RUNNING (R29). -/
  busyIffWork : s.busy = true ↔ s.work = .running
  /-- "BUSY = 1 only in phase ACTIVE ... or in phase DONE" (R29). -/
  busyPhase : s.busy = true → s.phase = .active ∨ s.phase = .done
  /-- "ERR ≠ 0 exactly when PHASE = FAILED" (R25). -/
  errIffFailed : s.err ≠ .none ↔ s.phase = .failed
  /-- The configuration is 0 in IDLE and FAILED (R26). -/
  cfgClear : s.phase = .idle ∨ s.phase = .failed → s.cfgPasses = 0 ∧ s.cfgWords = 0
  /-- The configuration is a supported pair in ACTIVE and DONE (R26). -/
  cfgSupported : s.phase = .active ∨ s.phase = .done → supported s.cfgPasses s.cfgWords = true
  /-- DIGEST is cleared whenever DONE is left (R28). -/
  digestClear : s.phase ≠ .done → s.digest = zeroWords8
  /-- "In DONE, DIGEST[i] for i ≥ CFG_WORDS is 0" (R28). -/
  digestHigh : ∀ i : Fin 8, s.cfgWords.toNat ≤ i.val → s.digest[i.val] = 0
  /-- Outside ACTIVE the hash state is zeroed (40_commands.md R103, R107, R108, 60_exceptions.md R248). -/
  sessionClear : s.phase ≠ .active → s.fp = zeroWords8 ∧ s.count = 0 ∧ s.blk = []
  /-- "COUNT[2:0] is always 0" (R21). -/
  countBytes : s.count.toNat % 8 = 0
  /-- Only CTRL and MSG writes are ever held (20_memory.md R58). -/
  heldStalls : ∀ h, s.held = some h → h.offset = ctrlOffset ∨ h.offset = msgOffset
  /-- The sequencer's round counter is 1 to 5 (41_compression.md R150). -/
  seqRange : 1 ≤ s.seqRound.toNat ∧ s.seqRound.toNat ≤ 5

/-- The instruction the next step performs (or holds), if it performs one: the held write once BUSY has fallen, or the
environment's next access (20_memory.md R58, R63). -/
def nextInstr (s : State) : Option Instr :=
  if s.rst ≠ .released then none
  else
    match s.held, s.env with
    | _, .rstLow :: _ => none
    | _, .rstHigh :: _ => none
    | some h, _ => if s.busy then none else some (heldInstr h)
    | none, .access a :: _ => some (instrOf a)
    | none, _ => none

/-- Is an event an access of the host? -/
def isAccess : Event → Bool
  | .access _ => true
  | .engine => false
  | .rstLow => false
  | .rstHigh => false

/-- A run is over (70_reset_and_hazards.md R279): "the program has made its last access, no access is held, and
WORK = NONE". What else the environment will do (an ENGINE turn, a change of `rst_n`) comes after the run. -/
abbrev runOver (s : State) : Prop := (∀ e ∈ s.env, isAccess e = false) ∧ s.held = none ∧ s.work = .none

/-- The final state of a run: the state at the first point at which it is over (R279), if that is reached within `n`
steps and none of them stops. -/
def runToEnd : Nat → State → Option State
  | 0, s => if runOver s then some s else none
  | n + 1, s =>
    if runOver s then some s
    else
      match step s with
      | .next t => runToEnd n t
      | .fault _ => none
      | .refused _ => none

/-- "The observable result of a run is the sequence of values its reads returned" (R279): the values read so far, at its
final state. -/
def observed (s : State) : List Word := s.reads

/-- An instruction performed and its work completed: `exec`, then the ENGINE's step if there is work
(40_commands.md R116). -/
def perform (i : Instr) (s : State) : Host.Outcome State Fault Refusal :=
  match exec i s with
  | .next t => .next (engineTurn t)
  | .fault r => .fault r
  | .refused r => .refused r

/-- Instructions performed one after the other, as by a host that waits for each (30_encoding.md R88, WAIT). -/
def performAll : List Instr → State → Host.Outcome State Fault Refusal
  | [], s => .next s
  | i :: is, s =>
    match perform i s with
    | .next t => performAll is t
    | .fault r => .fault r
    | .refused r => .refused r

end Sys2Proof.Machine
end

