-- ==== Sys2Proof/Certificates/Slice0/Obligations.lean ====
section
/-! DEFINITION. The statements about HAVAL-CE for the provers. Each is about every state and every operand that meets
its premises; no premise is about a run. Where a statement rests on a choice of the model its docstring names the log
entry. -/

namespace Sys2Proof.Certificates

open Sys2Proof Sys2Proof.Machine

/-- Compress over 32 block words given as a function (41_compression.md R140): FP[j] + T[j]. -/
def compressWords (w : Nat → Word) (p : BitVec 3) (fp : Words8) : Words8 := addWords8 fp (runRounds w p fp)

/-- The 32 words of a block given by its bytes (20_memory.md R54). -/
def wordsOf (b : Nat → Byte) (j : Nat) : Word := le32 (b (4 * j)) (b (4 * j + 1)) (b (4 * j + 2)) (b (4 * j + 3))

/-- Byte n of the block that the bytes `bs` complete: BLK below PEND, then `bs` (40_commands.md R101). -/
def filledByte (bs : List Byte) (s : State) (n : Nat) : Byte :=
  if n < pend s.count then Memory.read s.blk n else bs.getD (n - pend s.count) 0

/-- `t` is `s` after absorbing `bs` without completing a block: the count, the stored bytes, nothing else. -/
def AbsorbedInside (bs : List Byte) (s t : State) : Prop :=
  t = { s with count := s.count + BitVec.ofNat 64 (8 * bs.length), blk := t.blk } ∧
  ∀ n, Memory.read t.blk n =
    if pend s.count ≤ n ∧ n < pend s.count + bs.length then bs.getD (n - pend s.count) 0 else Memory.read s.blk n

/-- `t` is `s` after absorbing `bs` across the end of the block: one compression of the filled block, BUSY and WORK
set, the bytes left over at BLK[0..], nothing else but the hidden T and sequencer, which keep the compression's last
values (the model's: logs 2, 3). -/
def AbsorbedAcross (bs : List Byte) (s t : State) : Prop :=
  t = { s with
    count := s.count + BitVec.ofNat 64 (8 * bs.length)
    blk := t.blk
    fp := compressWords (wordsOf (filledByte bs s)) s.cfgPasses s.fp
    t := runRounds (wordsOf (filledByte bs s)) s.cfgPasses s.fp
    seqRound := s.cfgPasses
    seqStep := 31
    work := .running
    busy := true } ∧
  ∀ n, Memory.read t.blk n =
    if n < pend s.count + bs.length - 128 then bs.getD (n + 128 - pend s.count) 0
    else if n < 128 then filledByte bs s n
    else Memory.read s.blk n

/-- `t` is `s` after absorbing the bytes `bs`, at most one block's worth. -/
def Absorbed (bs : List Byte) (s t : State) : Prop :=
  (pend s.count + bs.length < 128 → AbsorbedInside bs s t) ∧
  (128 ≤ pend s.count + bs.length → AbsorbedAcross bs s t)

/-- `t` is `s` after the error entry with code `c` (60_exceptions.md R248). -/
def Failed (c : ErrCode) (s t : State) : Prop :=
  t = { s with
    err := if s.err = .none then c else s.err
    phase := .failed
    fp := zeroWords8
    count := 0
    blk := []
    digest := zeroWords8
    cfgPasses := 0
    cfgWords := 0 }

/-- Byte n of the last block when FINAL runs one compression (42_padding.md R179): the message bytes, 0x01, zeros, the
tail. -/
def lastBlockByte (s : State) (n : Nat) : Byte :=
  if n < pend s.count then Memory.read s.blk n
  else if n = pend s.count ∧ n < 118 then 0x01
  else if n < 118 then 0x00
  else (tailBytes s.cfgPasses s.cfgWords s.count).getD (n - 118) 0

/-- Byte n of the first of two blocks (R179): the message bytes, 0x01, zeros. -/
def paddedBlockByte (s : State) (n : Nat) : Byte :=
  if n < pend s.count then Memory.read s.blk n
  else if n = pend s.count then 0x01
  else 0x00

/-- Byte n of the second of two blocks (R179): zeros, then the tail. -/
def tailBlockByte (s : State) (n : Nat) : Byte :=
  if n < 118 then 0x00 else (tailBytes s.cfgPasses s.cfgWords s.count).getD (n - 118) 0

/-- `t` is `s` after a FINAL whose last compression is of the block words `w` from the fingerprint `fp`. That T and the
sequencer keep that compression's last values is the model's (logs 2, 3). -/
def Finished (w : Nat → Word) (fp : Words8) (s t : State) : Prop :=
  t = { s with
    digest := digestMux (tailor (compressWords w s.cfgPasses fp) s.cfgWords) s.cfgWords
    fp := zeroWords8
    count := 0
    blk := []
    phase := .done
    t := runRounds w s.cfgPasses fp
    seqRound := s.cfgPasses
    seqStep := 31
    work := .running
    busy := true }

/-- A data access of the host: `WR MSG, v`, or `WR DATA, v` then `ABSORB nb`. -/
abbrev Chunk := Word × Option (BitVec 3)

/-- The instructions of a data access. -/
def chunkInstrs : Chunk → List Instr
  | (v, none) => [.wrMsg v]
  | (v, some nb) => [.wrData v, .absorb nb]

/-- The bytes of a data access, in order. -/
def chunkBytes : Chunk → List Byte
  | (v, none) => lowBytes 4 v
  | (v, some nb) => lowBytes nb.toNat v

/-- Every ABSORB of the accesses is well-formed: NB ≤ 4. -/
def chunksWellFormed (cs : List Chunk) : Prop := ∀ c ∈ cs, ∀ nb, c.2 = some nb → nb.toNat ≤ 4

/-- A whole message as FINAL leaves it: the bytes, the padding to 118 mod 128, the ten tail bytes (42_padding.md
R170). -/
def paddedMessage (p : BitVec 3) (w : BitVec 4) (msg : List Byte) : List Byte :=
  msg ++ padding (msg.length % 128) ++ tailBytes p w (BitVec.ofNat 64 (8 * msg.length))

/-- The fingerprint after the first `k` blocks of a byte stream, from IV: the k-th compression reads bytes 128(k − 1) to
128k − 1 (40_commands.md R113). -/
def fingerprintAfter (p : BitVec 3) (m : List Byte) : Nat → Words8
  | 0 => iv
  | k + 1 => compressWords (wordsOf fun n => m.getD (128 * k + n) 0) p (fingerprintAfter p m k)

/-- HAVAL of a message: its padded blocks compressed in order, tailored and cut to `w` words. -/
def digestOf (p : BitVec 3) (w : BitVec 4) (msg : List Byte) : Words8 :=
  let m := paddedMessage p w msg
  digestMux (tailor (fingerprintAfter p m (m.length / 128)) w) w

/-- The instructions after which FAILED may have been left or ERR have changed (60_exceptions.md R249): START and
ABORT, and the CTRL writes of their words. -/
def leavesFailed : Instr → Bool
  | .start _ _ => true
  | .abort => true
  | .wrCtrl v => isStart v || isAbort v
  | .nop => false
  | .absorb _ => false
  | .final => false
  | .wrData _ => false
  | .wrMsg _ => false
  | .wrIgnored _ _ => false
  | .rd _ => false

end Sys2Proof.Certificates

open Sys2Proof Sys2Proof.Machine Sys2Proof.Certificates

/-! ## Encoding and decoding -/

/-- Decoding the access that encodes a well-formed instruction gives it back, as an access and as a word of the opcode
table, for every operand (30_encoding.md R80 to R84; the two formats of a word: log 13). -/
def Obligations.DecodeEncodeAgree : Prop :=
  ∀ i : Instr, wellFormed i = true →
    decodeTableWord (tableWordOf (encode i)).1 (tableWordOf (encode i)).2 = some i ∧
    decodeAccess (encode i) = .ok i ∧ instrOf (encode i) = i

/-- The opcode map of R84 and `wellformed` of R83 agree: a word is well-formed exactly when some row matches, no word
matches two rows, and exactly the well-formed words decode. -/
def Obligations.OpcodeRowsDisjointAndComplete : Prop :=
  ∀ v : Word,
    let hits := [isNop v, isStart v, isAbsorb v, isFinal v, isAbort v].count true
    hits ≤ 1 ∧ (wellFormedWord v = true ↔ hits = 1) ∧ (wellFormedWord v = true ↔ ∃ i, decodeCmd v = .ok i)

/-- The opcode map row by row (30_encoding.md R84): a word that meets a row's mask, match and condition decodes to that
row's command with the fields of R82, whatever rows stand before it; any other word decodes to none. The fifteen
supported START words and the five ABSORB words are the ones listed. -/
def Obligations.OpcodeMapAsTabled : Prop :=
  (∀ v : Word,
    (v &&& 0xFFFFFFFF = 0x00000000 → decodeCmd v = .ok .nop) ∧
    (v &&& 0xFFFF08FF = 0x00000001 → decodeCmd v = .ok (.start (v.extractLsb' 8 3) (v.extractLsb' 12 4))) ∧
    (v &&& 0xFFFFFF8F = 0x00000002 → (v.extractLsb' 4 3).toNat ≤ 4 → decodeCmd v = .ok (.absorb (v.extractLsb' 4 3))) ∧
    (v &&& 0xFFFFFFFF = 0x00000003 → decodeCmd v = .ok .final) ∧
    (v &&& 0xFFFFFFFF = 0x00000004 → decodeCmd v = .ok .abort) ∧
    (v &&& 0xFFFFFFFF ≠ 0x00000000 → v &&& 0xFFFF08FF ≠ 0x00000001 →
      ¬(v &&& 0xFFFFFF8F = 0x00000002 ∧ (v.extractLsb' 4 3).toNat ≤ 4) → v &&& 0xFFFFFFFF ≠ 0x00000003 →
      v &&& 0xFFFFFFFF ≠ 0x00000004 → ∃ r, decodeCmd v = .error r)) ∧
  (∀ (p : BitVec 3) (w : BitVec 4), supported p w = true ↔
    startWord p w ∈ [(0x00004301 : Word), 0x00005301, 0x00006301, 0x00007301, 0x00008301, 0x00004401, 0x00005401,
      0x00006401, 0x00007401, 0x00008401, 0x00004501, 0x00005501, 0x00006501, 0x00007501, 0x00008501]) ∧
  (∀ nb : BitVec 3, nb.toNat ≤ 4 ↔
    absorbWord nb ∈ [(0x00000002 : Word), 0x00000012, 0x00000022, 0x00000032, 0x00000042])

/-- Words written out from the spec's encodings decode to the instructions they stand for (R80, R84). -/
def Obligations.SpecWordsDecode : Prop :=
  decodeCmd 0x00000000 = .ok .nop ∧ decodeCmd 0x00004301 = .ok (.start 3 4) ∧
  decodeCmd 0x00008501 = .ok (.start 5 8) ∧ decodeCmd 0x00000042 = .ok (.absorb 4) ∧
  decodeCmd 0x00000003 = .ok .final ∧ decodeCmd 0x00000004 = .ok .abort ∧
  decodeBus 0x20 0x4301 = .wrCtrl 0x4301 ∧ decodeBus 0x23 0x41564148 = .wrData 0x41564148 ∧
  decodeBus 0x24 0x64636261 = .wrMsg 0x64636261 ∧ decodeBus 0x21 0 = .wrIgnored 1 0 ∧ decodeBus 0x08 0 = .rd 8

/-- The descriptor `{W, A}` decodes as the table of R80 says, for every W, A and value, and an access at a byte offset has
the descriptor whose A is offset bits 6:2. -/
def Obligations.DescriptorDecodesAsTabled : Prop :=
  ∀ (a : BitVec 5) (v : Word),
    decodeBus ((1 : BitVec 1) ++ a) v =
      (if a = 0x00 then .wrCtrl v else if a = 0x03 then .wrData v else if a = 0x04 then .wrMsg v else .wrIgnored a v) ∧
    decodeBus ((0 : BitVec 1) ++ a) v = .rd a ∧
    ∀ off : BitVec 7, off.extractLsb' 2 5 = a →
      decodeAccess (.read off) = .ok (.rd a) ∧ decodeAccess (.write off v) = .ok (decodeBus ((1 : BitVec 1) ++ a) v)

/-- Offset bits 1:0 are ignored: an access acts on the register at `off & 0x7C` (20_memory.md R52). -/
def Obligations.OffsetLowBitsIgnored : Prop :=
  ∀ (off : BitVec 7) (v : Word) (s : State),
    exec (instrOf (.read off)) s = exec (instrOf (.read (off &&& 0x7C))) s ∧
    exec (instrOf (.write off v)) s = exec (instrOf (.write (off &&& 0x7C) v)) s

/-! ## The step -/

/-- A step runs the decoded instruction: with the engine running, nothing held and an access next, the step is `exec`
of the access's instruction, which is the one the decoder gives (log 1: the host's accesses stand in `env`). -/
def Obligations.StepRunsDecodedAccess : Prop :=
  ∀ (s : State) (a : Access) (rest : List Event) (i : Instr),
    s.rst = .released → s.held = none → s.env = .access a :: rest → decodeAccess a = .ok i →
    step s = exec i { s with env := rest }

/-- A command line whose word encodes no command is run as the CTRL write of that word (30_encoding.md R87,
40_commands.md R100). -/
def Obligations.StepRunsIllegalWordAsCtrlWrite : Prop :=
  ∀ (s : State) (v : Word) (rest : List Event),
    s.rst = .released → s.held = none → s.env = .access (.cmd v) :: rest → wellFormedWord v = false →
    step s = exec (.wrCtrl v) { s with env := rest }

/-- A CTRL or MSG write presented while BUSY = 1 is held, waits for the ENGINE's step, and is then performed as it
would have been on the idle engine: neither lost nor changed (20_memory.md R58, 70_reset_and_hazards.md R278). The
environment's next event is no reset. -/
def Obligations.StalledWritePerformedAfterEngine : Prop :=
  ∀ (s : State) (a : Access) (rest : List Event) (h : HeldWrite),
    s.rst = .released → s.held = none → s.busy = true → s.work = .running → s.env = .access a :: rest →
    (a = .cmd h.value ∧ h.offset = 0 ∨
      ∃ off, a = .write off h.value ∧ h.offset = off.extractLsb' 2 5 ∧ (h.offset = 0 ∨ h.offset = 4)) →
    rest.head? ≠ some .rstLow → rest.head? ≠ some .rstHigh →
    ∃ s1 s2, step s = .next s1 ∧ s1 = { s with env := rest, held := some h } ∧
      step s1 = .next s2 ∧ s2 = { s1 with work := .none, busy := false } ∧
      step s2 = exec (instrOf a) { s with env := rest, work := .none, busy := false }

/-- The ENGINE's step is taken when the environment puts it next, and at the latest when no access is left: it ends
the work and changes nothing else (40_commands.md R116). -/
def Obligations.EngineStepEndsTheWork : Prop :=
  ∀ s : State, s.rst = .released → s.held = none → s.work = .running →
    (s.env = [] → step s = .next { s with work := .none, busy := false }) ∧
    (∀ rest, s.env = .engine :: rest → step s = .next { s with work := .none, busy := false, env := rest })

/-- With no access and no work the engine holds its state (60_exceptions.md R256). -/
def Obligations.IdleEngineHoldsItsState : Prop :=
  ∀ s : State, s.rst = .released → s.held = none → s.work = .none → s.env = [] → step s = .next s

/-- Once reset has been applied no step faults or is refused: every access has an effect (60_exceptions.md R250). -/
def Obligations.NoStopAfterReset : Prop :=
  ∀ s : State, s.rst ≠ .unapplied → ∃ t, step s = .next t

/-! ## Reset -/

/-- `State.reset` holds the values of 10_state.md R40. (T and the sequencer have none there: logs 2, 3.) -/
def Obligations.ResetStateValues : Prop :=
  (∀ j, j < 8 → wordAt State.reset.fp j = 0) ∧ State.reset.count = 0 ∧ (∀ n, Memory.read State.reset.blk n = 0) ∧
  State.reset.phase = .idle ∧ State.reset.err = .none ∧ State.reset.cfgPasses = 0 ∧ State.reset.cfgWords = 0 ∧
  State.reset.data = 0 ∧ (∀ j, j < 8 → wordAt State.reset.digest j = 0) ∧ State.reset.busy = false ∧
  State.reset.work = .none

/-- A rising edge with `rst_n` = 0 gives every piece of the engine's state its reset value from every state, pending
work and a held write included; only what the environment has seen and will do stays (70_reset_and_hazards.md R270;
T and the sequencer take the model's own values, logs 2, 3). -/
def Obligations.ResetEdgeFromEveryState : Prop :=
  ∀ (s : State) (rest : List Event), s.env = .rstLow :: rest →
    step s = .next { State.reset with rst := .asserted, reads := s.reads, draws := s.draws, env := rest }

/-- While `rst_n` = 0 an access performs nothing and a read returns 0 (R270); that a write is then lost is the model's
reading (log 7). T and the sequencer, unspecified after reset (R40, R271), take the model's own values through
`State.reset` (logs 2, 3: DESIGN CHOICE). -/
def Obligations.AccessDuringReset : Prop :=
  ∀ (s : State) (a : Access) (rest : List Event), s.rst = .asserted → s.env = .access a :: rest →
    step s = .next
      { State.reset with
        rst := .asserted
        reads := if isRead a = true then s.reads ++ [0] else s.reads
        draws := s.draws
        env := rest }

/-- Before the first reset an access has no step (R272: "the host is stuck there"). -/
def Obligations.AccessBeforeFirstResetIsStuck : Prop :=
  ∀ (s : State) (a : Access) (rest : List Event), s.rst = .unapplied → s.env = .access a :: rest →
    step s = .fault .accessBeforeReset

/-! ## The commands -/

/-- NOP changes nothing, in every phase; while BUSY = 1 it is held like any CTRL write (40_commands.md R104). -/
def Obligations.NopDoesNothing : Prop :=
  encode .nop = .cmd 0x00000000 ∧ ∀ s : State,
    (s.busy = false → exec .nop s = .next s) ∧
    (s.busy = true → exec .nop s = .next { s with held := some ⟨0, 0x00000000⟩ })

/-- START p, w on an idle engine, in every phase: a supported pair opens a fresh session; any other raises CFG, with
ERR = CFG whatever it was (40_commands.md R105, 60_exceptions.md R242). DATA and all else stay. -/
def Obligations.StartOpensOrRejects : Prop :=
  ∀ (s : State) (p : BitVec 3) (w : BitVec 4), s.busy = false →
    (p.toNat ∈ [3, 4, 5] ∧ w.toNat ∈ [4, 5, 6, 7, 8] →
      exec (.start p w) s = .next
        { s with
          err := .none, digest := zeroWords8, cfgPasses := p, cfgWords := w, fp := iv, count := 0, blk := []
          phase := .active }) ∧
    (¬(p.toNat ∈ [3, 4, 5] ∧ w.toNat ∈ [4, 5, 6, 7, 8]) →
      exec (.start p w) s = .next
        { s with
          err := .cfg, digest := zeroWords8, cfgPasses := 0, cfgWords := 0, fp := zeroWords8, count := 0, blk := []
          phase := .failed })

/-- ABSORB nb in ACTIVE, when the count stays in range, absorbs the nb low bytes of DATA, least significant first; a
block they complete is compressed once; every other byte of BLK and every other field stays; nb = 0 changes nothing
(40_commands.md R101, R102, R106, with R54, R140; where the sequencer rests: log 3). The premises on BLK and CFG_PASSES
are parts of the invariant `Inv`. -/
def Obligations.AbsorbMovesDataBytes : Prop :=
  ∀ (s : State) (nb : BitVec 3), s.busy = false → s.phase = .active → nb.toNat ≤ 4 →
    s.count.toNat + 8 * nb.toNat ≤ 2 ^ 64 - 1 → Memory.wf s.blk → supportedPasses s.cfgPasses = true →
    ∃ t, exec (.absorb nb) s = .next t ∧ Absorbed (lowBytes nb.toNat s.data) s t ∧ (nb.toNat = 0 → t = s)

/-- WR_MSG in ACTIVE, when the count stays in range, absorbs the four bytes of the value, least significant first
(40_commands.md R110); DATA is not written. Where the sequencer rests: log 3. -/
def Obligations.MsgWriteMovesFourBytes : Prop :=
  ∀ (s : State) (v : Word), s.busy = false → s.phase = .active → s.count.toNat + 32 ≤ 2 ^ 64 - 1 →
    Memory.wf s.blk → supportedPasses s.cfgPasses = true →
    ∃ t, exec (.wrMsg v) s = .next t ∧ Absorbed [byteOf 0 v, byteOf 1 v, byteOf 2 v, byteOf 3 v] s t

/-- On an idle engine `WR MSG, v` does what `WR DATA, v` then `ABSORB nb=4` does, except that DATA is not written, in
every phase, and never raises ILLEGAL; while BUSY = 1 it is held (40_commands.md R110). -/
def Obligations.MsgWriteIsDataThenAbsorb : Prop :=
  ∀ (s : State) (v : Word),
    encode (.wrMsg v) = .write 0x10 v ∧
    (s.busy = false →
      ∃ t t', exec (.wrMsg v) s = .next t ∧ exec (.absorb 4) { s with data := v } = .next t' ∧
        t' = { t with data := v } ∧ t.data = s.data ∧ (t.err = .illegal → s.err = .illegal)) ∧
    (s.busy = true → exec (.wrMsg v) s = .next { s with held := some ⟨4, v⟩ })

/-- LEN: in ACTIVE an ABSORB of nb bytes or an MSG write raises it exactly when the count would exceed 2^64 − 1,
computed without wrap-around, and absorbs nothing; FINAL never raises it (60_exceptions.md R243). -/
def Obligations.LengthOverflowRaisesLen : Prop :=
  ∀ (s : State), s.busy = false → s.phase = .active →
    (∀ nb : BitVec 3, nb.toNat ≤ 4 → s.count.toNat + 8 * nb.toNat > 2 ^ 64 - 1 →
      ∃ t, exec (.absorb nb) s = .next t ∧ Failed .len s t) ∧
    (∀ v : Word, s.count.toNat + 8 * 4 > 2 ^ 64 - 1 → ∃ t, exec (.wrMsg v) s = .next t ∧ Failed .len s t) ∧
    (∀ (nb : BitVec 3) (t : State), nb.toNat ≤ 4 → s.err = .none → s.count.toNat + 8 * nb.toNat ≤ 2 ^ 64 - 1 →
      exec (.absorb nb) s = .next t → t.err = .none ∧ t.phase = .active) ∧
    (∀ (v : Word) (t : State), s.err = .none → s.count.toNat + 8 * 4 ≤ 2 ^ 64 - 1 →
      exec (.wrMsg v) s = .next t → t.err = .none ∧ t.phase = .active) ∧
    (∃ t, exec .final s = .next t ∧ t.err = s.err ∧ t.phase = .done)

/-- SEQ: an ABSORB (any nb, 0 included), an MSG write or a FINAL outside ACTIVE raises it (60_exceptions.md R244); an
error already held is kept (R247). START, ABORT and NOP never raise it. -/
def Obligations.MisuseRaisesSeq : Prop :=
  ∀ (s : State), s.busy = false → s.phase ≠ .active →
    (∀ nb : BitVec 3, nb.toNat ≤ 4 → ∃ t, exec (.absorb nb) s = .next t ∧ Failed .seq s t) ∧
    (∀ v : Word, ∃ t, exec (.wrMsg v) s = .next t ∧ Failed .seq s t) ∧
    (∃ t, exec .final s = .next t ∧ Failed .seq s t) ∧
    (∀ i, (∃ p w, i = .start p w) ∨ i = .abort ∨ i = .nop →
      ∃ t, exec i s = .next t ∧ (t.err = .seq → i = .nop ∧ s.err = .seq))

/-- ILLEGAL: a CTRL write of a word that is not well-formed has no effect but the error entry, in every phase
(60_exceptions.md R245, 30_encoding.md R83, R85), and NB = 5 to 7 in an ABSORB is such a word. -/
def Obligations.IllegalWordRaisesIllegal : Prop :=
  ∀ (s : State), s.busy = false →
    (∀ v : Word, wellFormedWord v = false → ∃ t, exec (.wrCtrl v) s = .next t ∧ Failed .illegal s t) ∧
    (∀ nb : BitVec 3, 4 < nb.toNat → wellFormedWord (absorbWord nb) = false ∧
      ∃ t, exec (.absorb nb) s = .next t ∧ Failed .illegal s t)

/-- ILLEGAL comes before SEQ and CFG: an ill-formed word raises it in IDLE too, and an ill-formed START with an
unsupported pair raises it, not CFG (60_exceptions.md R246). -/
def Obligations.IllegalComesFirst : Prop :=
  ∀ (s : State) (v : Word) (t : State), s.busy = false → s.err = .none → wellFormedWord v = false →
    exec (.wrCtrl v) s = .next t → t.err = .illegal

/-- The digest of a session with fewer than 118 pending bytes: FINAL in ACTIVE compresses the one block of R179, tailors,
loads DIGEST, clears the session, enters DONE and sets BUSY; DATA, the configuration and all else stay
(40_commands.md R107, 42_padding.md R170 to R179, 43_tailoring.md R195; where the sequencer rests: log 3). -/
def Obligations.FinalWithOneBlock : Prop :=
  ∀ s : State, s.busy = false → s.phase = .active → Memory.wf s.blk → supportedPasses s.cfgPasses = true →
    pend s.count < 118 →
    ∃ t, exec .final s = .next t ∧ Finished (wordsOf (lastBlockByte s)) s.fp s t

/-- The digest of a session with 118 or more pending bytes: FINAL compresses the padded block and then the block of
zeros and tail (42_padding.md R178, R179; where the sequencer rests: log 3). -/
def Obligations.FinalWithTwoBlocks : Prop :=
  ∀ s : State, s.busy = false → s.phase = .active → Memory.wf s.blk → supportedPasses s.cfgPasses = true →
    118 ≤ pend s.count →
    ∃ t, exec .final s = .next t ∧
      Finished (wordsOf (tailBlockByte s)) (compressWords (wordsOf (paddedBlockByte s)) s.cfgPasses s.fp) s t

/-- ABORT on an idle engine, in every phase, clears the session, the digest, the configuration and the error and goes
to IDLE; DATA is kept. While BUSY = 1 it is held (40_commands.md R108). -/
def Obligations.AbortClearsEverythingButData : Prop :=
  encode .abort = .cmd 0x00000004 ∧ ∀ s : State,
    (s.busy = false →
      exec .abort s = .next
        { s with
          fp := zeroWords8, count := 0, blk := [], digest := zeroWords8, cfgPasses := 0, cfgWords := 0, err := .none
          phase := .idle }) ∧
    (s.busy = true → exec .abort s = .next { s with held := some ⟨0, 0x00000004⟩ })

/-- The dispatch of a CTRL write (40_commands.md R100): while BUSY = 1 it is held; accepted, a word that is not
well-formed is the error entry with ILLEGAL and any other is exactly the command it encodes, chosen by OP (and, BUSY or
not, has the same next state as that command). -/
def Obligations.CtrlWriteIsItsCommand : Prop :=
  ∀ (v : Word) (s : State),
    (s.busy = true → exec (.wrCtrl v) s = .next { s with held := some ⟨0, v⟩ }) ∧
    (s.busy = false → wellFormedWord v = false → ∃ t, exec (.wrCtrl v) s = .next t ∧ Failed .illegal s t) ∧
    (wellFormedWord v = true →
      ∃ i t, decodeCmd v = .ok i ∧ exec (.wrCtrl v) s = .next t ∧ exec i s = .next t ∧
        (opField v = 0 → i = .nop) ∧ (opField v = 1 → i = .start (v.extractLsb' 8 3) (v.extractLsb' 12 4)) ∧
        (opField v = 2 → i = .absorb (v.extractLsb' 4 3)) ∧ (opField v = 3 → i = .final) ∧ (opField v = 4 → i = .abort))

/-- A CTRL write on an idle engine performs its command, one clause a command: the state each command's own statement
gives (40_commands.md R100). ABSORB and FINAL in ACTIVE, ABSORB with the count in range; BLK canonical and CFG_PASSES
supported are parts of `Inv`. Where the sequencer rests: log 3. -/
def Obligations.CtrlWriteCompletes : Prop :=
  ∀ (s : State), s.busy = false →
    exec (.wrCtrl 0x00000000) s = .next s ∧
    (∀ (p : BitVec 3) (w : BitVec 4), supported p w = true →
      exec (.wrCtrl (startWord p w)) s = .next
        { s with
          err := .none, digest := zeroWords8, cfgPasses := p, cfgWords := w, fp := iv, count := 0, blk := []
          phase := .active }) ∧
    (∀ nb : BitVec 3, s.phase = .active → nb.toNat ≤ 4 → s.count.toNat + 8 * nb.toNat ≤ 2 ^ 64 - 1 →
      Memory.wf s.blk → supportedPasses s.cfgPasses = true →
      ∃ t, exec (.wrCtrl (absorbWord nb)) s = .next t ∧ Absorbed (lowBytes nb.toNat s.data) s t) ∧
    (s.phase = .active → Memory.wf s.blk → supportedPasses s.cfgPasses = true → pend s.count < 118 →
      ∃ t, exec (.wrCtrl 0x00000003) s = .next t ∧ Finished (wordsOf (lastBlockByte s)) s.fp s t) ∧
    (s.phase = .active → Memory.wf s.blk → supportedPasses s.cfgPasses = true → 118 ≤ pend s.count →
      ∃ t, exec (.wrCtrl 0x00000003) s = .next t ∧
        Finished (wordsOf (tailBlockByte s)) (compressWords (wordsOf (paddedBlockByte s)) s.cfgPasses s.fp) s t) ∧
    exec (.wrCtrl 0x00000004) s = .next
      { s with
        fp := zeroWords8, count := 0, blk := [], digest := zeroWords8, cfgPasses := 0, cfgWords := 0, err := .none
        phase := .idle }

/-! ## The other accesses -/

/-- WR_DATA writes DATA and nothing else, in any phase, and never stalls (40_commands.md R109); a read of DATA then
returns it, BUSY or not. -/
def Obligations.DataWriteOnlyWritesData : Prop :=
  ∀ (v : Word) (s : State),
    encode (.wrData v) = .write 0x0C v ∧ exec (.wrData v) s = .next { s with data := v } ∧
    exec (.rd 3) { s with data := v } = .next { s with data := v, reads := s.reads ++ [v] }

/-- A write at any byte offset but those of CTRL, DATA and MSG has no effect and does not stall (40_commands.md
R112). -/
def Obligations.IgnoredWriteDoesNothing : Prop :=
  ∀ (off : BitVec 7) (v : Word) (s : State), off.toNat / 4 ≠ 0 → off.toNat / 4 ≠ 3 → off.toNat / 4 ≠ 4 →
    instrOf (.write off v) = .wrIgnored (off.extractLsb' 2 5) v ∧ exec (instrOf (.write off v)) s = .next s

/-- A read outside a BUSY interval returns the register's value and changes nothing else (40_commands.md R111): the
fields of STATUS (10_state.md R33) and CONFIG (R34), DATA (R35), the halves of COUNT (R37), DIGESTi in DONE and 0
otherwise (R38), 0 at CTRL, MSG and the reserved offsets (R32, R36, R39). -/
def Obligations.ReadReturnsRegister : Prop :=
  ∀ (a : BitVec 5) (s : State), s.busy = false →
    ∃ v : Word, exec (.rd a) s = .next { s with reads := s.reads ++ [v] } ∧
      (a.toNat = 1 → v.extractLsb' 0 1 = 0 ∧ v.extractLsb' 1 2 = phaseBits s.phase ∧ v.extractLsb' 3 1 = 0 ∧
        v.extractLsb' 4 4 = errBits s.err ∧ v.extractLsb' 8 24 = 0) ∧
      (a.toNat = 2 → v.extractLsb' 0 8 = 0 ∧ v.extractLsb' 8 3 = s.cfgPasses ∧ v.extractLsb' 11 1 = 0 ∧
        v.extractLsb' 12 4 = s.cfgWords ∧ v.extractLsb' 16 16 = 0) ∧
      (a.toNat = 3 → v = s.data) ∧
      (a.toNat = 5 → v.toNat = s.count.toNat % 2 ^ 32) ∧
      (a.toNat = 6 → v.toNat = s.count.toNat / 2 ^ 32) ∧
      (8 ≤ a.toNat → a.toNat ≤ 15 → v = if s.phase = .done then wordAt s.digest (a.toNat - 8) else 0) ∧
      (a.toNat = 0 ∨ a.toNat = 4 ∨ a.toNat = 7 ∨ 16 ≤ a.toNat → v = 0)

/-- A read during the BUSY interval (20_memory.md R59): STATUS reads 0x00000003; CONFIG and DATA read their values; at
COUNT_LO, COUNT_HI and DIGEST0..7 the value is free, fresh at each read (log 4: it is whatever `Config.freeRead` is;
nothing is claimed of it); CTRL, MSG and reserved offsets read 0. Nothing else changes and no read stalls. -/
def Obligations.ReadDuringBusy : Prop :=
  ∀ (a : BitVec 5) (s : State), s.busy = true →
    (a.toNat = 5 ∨ a.toNat = 6 ∨ 8 ≤ a.toNat ∧ a.toNat ≤ 15 →
      ∃ v : Word, exec (.rd a) s = .next { s with reads := s.reads ++ [v], draws := s.draws + 1 }) ∧
    (¬(a.toNat = 5 ∨ a.toNat = 6 ∨ 8 ≤ a.toNat ∧ a.toNat ≤ 15) →
      exec (.rd a) s = .next
        { s with
          reads := s.reads ++
            [if a.toNat = 1 then 0x00000003 else if a.toNat = 2 then configWord s else if a.toNat = 3 then s.data
              else 0] })

/-! ## The compression datapath -/

/-- The step rule (41_compression.md R144, with the window and output register of R141, R142): step i writes
`rotr(F, 7) + rotr(T[o], 11) + W[ord_r(i)] + K_r(i)` to T[o], o = 7 − (i mod 8), from the old T, and nothing else. -/
def Obligations.StepWritesOneWord : Prop :=
  ∀ (r : RoundTable) (w : Nat → Word) (t : Words8) (i j : Nat), j < 8 →
    wordAt (roundStep r w t i) j =
      if j = 7 - i % 8 then
        (r.fn (wordAt t (j + 1 + r.phi.a6)) (wordAt t (j + 1 + r.phi.a5)) (wordAt t (j + 1 + r.phi.a4))
          (wordAt t (j + 1 + r.phi.a3)) (wordAt t (j + 1 + r.phi.a2)) (wordAt t (j + 1 + r.phi.a1))
          (wordAt t (j + 1 + r.phi.a0))).rotateRight 7
        + (wordAt t j).rotateRight 11 + w (r.ord.getD i 0) + r.k.getD i 0
      else wordAt t j

/-- The shift-register form computes the same rounds, for every pass count, block and fingerprint; within a round, at the
start of step n, S[k] is X_k for k ≤ 6 and S[7] is T[o], so that after every 8 steps S[j] = T[j] (41_compression.md
R149). -/
def Obligations.ShiftRegisterFormAgrees : Prop :=
  ∀ (w : Nat → Word) (p : BitVec 3) (fp : Words8),
    shiftRounds w p fp = runRounds w p fp ∧
    ∀ r ∈ roundTables p, ∀ (t : Words8) (n : Nat),
      let s' := (List.range n).foldl (shiftStep r w) t
      let t' := (List.range n).foldl (roundStep r w) t
      (∀ k < 7, wordAt s' k = windowWord t' (outIndex n) k) ∧ wordAt s' 7 = wordAt t' (outIndex n) ∧
        (n % 8 = 0 → s' = t')

/-- The sequencer starts at (1, 0), is at round n div 32 + 1 and step n mod 32 after n steps, and after 32·p steps,
whatever the block, has performed the p rounds and stopped, at (p, 31) (41_compression.md R150; where it rests:
log 3). -/
def Obligations.SequencerRunsTheRounds : Prop :=
  ∀ (w : Nat → Word) (p : BitVec 3) (fp : Words8), supportedPasses p = true →
    (∀ n < 32 * p.toNat,
      (seqRun w p n (seqStart fp)).round.toNat = n / 32 + 1 ∧ (seqRun w p n (seqStart fp)).step.toNat = n % 32 ∧
        (seqRun w p n (seqStart fp)).stopped = false) ∧
    seqRun w p (32 * p.toNat) (seqStart fp) =
      { t := runRounds w p fp, round := p, step := 31, stopped := true }

/-- UNROLLED(k) computes the same rounds for every k that divides 32 (41_compression.md R151). -/
def Obligations.UnrolledFormAgrees : Prop :=
  ∀ (k : Nat) (w : Nat → Word) (p : BitVec 3) (fp : Words8), k ∣ 32 → unrolledRounds k w p fp = runRounds w p fp

/-- Whatever organisation IMPL names, ITERATIVE, UNROLLED(k) for any k that divides 32, or PIPELINED, it computes the same
rounds (41_compression.md R151). -/
def Obligations.OrganisationChangesNoResult : Prop :=
  ∀ (impl : Impl) (w : Nat → Word) (p : BitVec 3) (fp : Words8), organisedRounds impl w p fp = runRounds w p fp

/-- The gate forms of the round functions equal their definitions for every input (45_tables.md R211 to R215). -/
def Obligations.GateFormsAgree : Prop :=
  ∀ x6 x5 x4 x3 x2 x1 x0 : Word,
    f1 x6 x5 x4 x3 x2 x1 x0 = (x1 &&& (x0 ^^^ x4)) ^^^ (x2 &&& x5) ^^^ (x3 &&& x6) ^^^ x0 ∧
    f2 x6 x5 x4 x3 x2 x1 x0 =
      (x2 &&& ((x1 &&& ~~~x3) ^^^ (x4 &&& x5) ^^^ x6 ^^^ x0)) ^^^ (x4 &&& (x1 ^^^ x5)) ^^^ (x3 &&& x5) ^^^ x0 ∧
    f3 x6 x5 x4 x3 x2 x1 x0 =
      (x3 &&& ((x1 &&& x2) ^^^ x6 ^^^ x0)) ^^^ (x1 &&& x4) ^^^ (x2 &&& x5) ^^^ x0 ∧
    f4 x6 x5 x4 x3 x2 x1 x0 =
      (x4 &&& ((x5 &&& ~~~x2) ^^^ (x3 &&& ~~~x6) ^^^ x1 ^^^ x6 ^^^ x0)) ^^^ (x3 &&& ((x1 &&& x2) ^^^ x5 ^^^ x6))
        ^^^ (x2 &&& x6) ^^^ x0 ∧
    f5 x6 x5 x4 x3 x2 x1 x0 =
      (x0 &&& ((x1 &&& x2 &&& x3) ^^^ ~~~x5)) ^^^ (x1 &&& x4) ^^^ (x2 &&& x5) ^^^ (x3 &&& x6)

/-- Each row of φ is a permutation of 0..6 and each word order one of 0..31 (45_tables.md R216 to R222). -/
def Obligations.TablesArePermutations : Prop :=
  (∀ row ∈ [phi31, phi32, phi33, phi41, phi42, phi43, phi44, phi51, phi52, phi53, phi54, phi55],
    ∀ k < 7, [row.a6, row.a5, row.a4, row.a3, row.a2, row.a1, row.a0].count k = 1) ∧
  (∀ o ∈ [ord1, ord2, ord3, ord4, ord5], o.length = 32 ∧ ∀ j < 32, o.count j = 1) ∧
  (∀ k ∈ [k1, k2, k3, k4, k5], k.length = 32)

/-- Compress adds T into FP element by element modulo 2^32, and reads BLK only at its bytes 0 to 127
(41_compression.md R147, R148, 20_memory.md R54). -/
def Obligations.CompressReadsTheBlockAndChains : Prop :=
  ∀ (fp : Words8) (blk blk' : List Host.Cell) (p : BitVec 3), supportedPasses p = true →
    (∀ n < 128, Memory.read blk n = Memory.read blk' n) →
    compress fp blk p = compress fp blk' p ∧
    ∀ j < 8, (wordAt (compress fp blk p) j).toNat =
      ((wordAt fp j).toNat + (wordAt (runRounds (blkWord blk) p fp) j).toNat) % 2 ^ 32

/-! ## Padding, tailoring, output -/

/-- The padding brings the length to 118 mod 128 bytes with 1 to 128 bytes, 0x01 and then zeros (42_padding.md R171,
R172). -/
def Obligations.PaddingReaches118 : Prop :=
  ∀ rmd, rmd < 128 →
    1 ≤ (padding rmd).length ∧ (padding rmd).length ≤ 128 ∧ (rmd + (padding rmd).length) % 128 = 118 ∧
    ∀ k, k < (padding rmd).length → (padding rmd).getD k 0 = if k = 0 then 0x01 else 0x00

/-- The tail bytes of a supported configuration (42_padding.md R173 to R176): 0x19, 0x21, 0x29 for 3, 4, 5 passes; the
width in bits divided by 4; the count, least significant byte first. -/
def Obligations.TailBytesAsGiven : Prop :=
  ∀ (p : BitVec 3) (w : BitVec 4) (c : BitVec 64), supported p w = true →
    (tailBytes p w c).length = 10 ∧
    ((tailBytes p w c).getD 0 0).toNat = 8 * p.toNat + 1 ∧
    ((tailBytes p w c).getD 1 0).toNat = 8 * w.toNat ∧
    ∀ k < 8, ((tailBytes p w c).getD (2 + k) 0).toNat = c.toNat / 2 ^ (8 * k) % 256

/-- Tailoring (43_tailoring.md R190, R197): 256 bits is the identity; for every width words at index ≥ w are left as
they are, and when they are 0 no word changes. -/
def Obligations.TailoringOfZeroHighWords : Prop :=
  ∀ (f : Words8) (w : BitVec 4), supportedWords w = true →
    (w = 8 → tailor f w = f) ∧
    (∀ j < 8, w.toNat ≤ j → wordAt (tailor f w) j = wordAt f j) ∧
    ((∀ j < 8, w.toNat ≤ j → wordAt f j = 0) → tailor f w = f)

/-- Tailoring conserves the folded bits: for 128 bits the four folded words are the bytes of F4..F7, each used once, so
that the folds before rotation add up to F4 + F5 + F6 + F7 (43_tailoring.md R191: "Each byte of F4..F7 enters exactly
one of t0..t3"). -/
def Obligations.TailoringUsesEachByteOnce : Prop :=
  ∀ f : Words8, (∀ j < 4, wordAt f j = 0) →
    (wordAt (tailor4 f) 0).rotateLeft 8 + (wordAt (tailor4 f) 1).rotateLeft 16 + (wordAt (tailor4 f) 2).rotateLeft 24
      + wordAt (tailor4 f) 3 = wordAt f 4 + wordAt f 5 + wordAt f 6 + wordAt f 7

/-- The output multiplexer and serialisation as functions of any eight words D (derived from 43_tailoring.md R195, R196):
word i is D_i for i < w and 0 from w on; output byte n is byte n mod 4 of word n div 4. That FINAL loads DIGEST so, with
D = Tailor(FP, w), is `FinalWithOneBlock` and `FinalWithTwoBlocks`. -/
def Obligations.DigestIsTheFirstWords : Prop :=
  ∀ (d : Words8) (w : BitVec 4),
    (∀ i < 8, wordAt (digestMux d w) i = if i < w.toNat then wordAt d i else 0) ∧
    (∀ n < 4 * w.toNat, n < 32 →
      (digestByte (digestMux d w) n).toNat = (wordAt d (n / 4)).toNat / 2 ^ (8 * (n % 4)) % 256)

/-! ## Invariants and whole-machine rules -/

/-- The invariant holds at reset. -/
def Obligations.ResetMeetsInvariant : Prop := Inv State.reset

/-- Every step keeps the invariant, from every state that meets it: BLK canonical and within 128 bytes; BUSY with WORK
and only in ACTIVE or DONE; ERR ≠ 0 exactly in FAILED; the configuration, DIGEST, FP, COUNT and BLK as the phase allows;
COUNT a multiple of 8; only CTRL and MSG writes held; the round counter 1 to 5 (10_state.md R21, R22, R25, R26, R28,
R29, 20_memory.md R58). -/
def Obligations.StepKeepsInvariant : Prop :=
  ∀ s t : State, Inv s → step s = .next t → Inv t

/-- FAILED is left, or ERR changes there, only by START, ABORT or reset (60_exceptions.md R249). -/
def Obligations.FailedLeftOnlyByStartAbortReset : Prop :=
  ∀ s t : State, s.phase = .failed → s.err ≠ .none → step s = .next t →
    t.phase ≠ .failed ∨ t.err ≠ s.err →
    s.rst = .asserted ∨ (∃ rest, s.env = .rstLow :: rest) ∨ ∃ i, nextInstr s = some i ∧ leavesFailed i = true

/-- DATA changes only by WR_DATA and by reset (10_state.md R27). -/
def Obligations.DataChangesOnlyByItsWrite : Prop :=
  ∀ s t : State, step s = .next t → t.data ≠ s.data →
    s.rst = .asserted ∨ (∃ rest, s.env = .rstLow :: rest) ∨ nextInstr s = some (.wrData t.data)

/-- Reads and writes that are not CTRL or MSG writes never touch the session: FP, COUNT, BLK, PHASE, ERR, the
configuration, DIGEST, BUSY, WORK and the datapath stay, BUSY or not (20_memory.md R57, R58). -/
def Obligations.OnlyCtrlAndMsgTouchTheSession : Prop :=
  ∀ (s : State) (i : Instr), (∃ v, i = .wrData v) ∨ (∃ a v, i = .wrIgnored a v) ∨ (∃ a, i = .rd a) →
    ∃ t, exec i s = .next t ∧
      t = { s with data := t.data, reads := t.reads, draws := t.draws } ∧
      (∀ v, i = .wrData v → t.data = v ∧ t.reads = s.reads ∧ t.draws = s.draws) ∧
      ((∃ a v, i = .wrIgnored a v) → t = s) ∧
      ((∃ a, i = .rd a) → t.data = s.data ∧ ∃ v, t.reads = s.reads ++ [v])

/-- The phase-transition table of 70_reset_and_hazards.md R274, for an idle engine with ERR ≠ 0 exactly in FAILED; an
access of the last column leaves PHASE and ERR. -/
def Obligations.PhaseTransitions : Prop :=
  ∀ s : State, s.busy = false → (s.err ≠ .none ↔ s.phase = .failed) →
    (∀ p w, supported p w = true → ∃ t, exec (.start p w) s = .next t ∧ t.phase = .active ∧ t.err = .none) ∧
    (∀ p w, supported p w = false → ∃ t, exec (.start p w) s = .next t ∧ t.phase = .failed ∧ t.err = .cfg) ∧
    (∀ i, (∃ nb : BitVec 3, nb.toNat ≤ 4 ∧ i = .absorb nb) ∨ (∃ v, i = .wrMsg v) →
      ∃ t, exec i s = .next t ∧
        (s.phase = .active → t.phase = .active ∧ t.err = .none ∨ t.phase = .failed ∧ t.err = .len) ∧
        (s.phase = .idle ∨ s.phase = .done → t.phase = .failed ∧ t.err = .seq) ∧
        (s.phase = .failed → t.phase = .failed ∧ t.err = s.err)) ∧
    (∃ t, exec .final s = .next t ∧
      (s.phase = .active → t.phase = .done ∧ t.err = .none) ∧
      (s.phase = .idle ∨ s.phase = .done → t.phase = .failed ∧ t.err = .seq) ∧
      (s.phase = .failed → t.phase = .failed ∧ t.err = s.err)) ∧
    (∃ t, exec .abort s = .next t ∧ t.phase = .idle ∧ t.err = .none) ∧
    (∀ i, i = .nop ∨ (∃ a, i = .rd a) ∨ (∃ v, i = .wrData v) ∨ (∃ a v, i = .wrIgnored a v) →
      ∃ t, exec i s = .next t ∧ t.phase = s.phase ∧ t.err = s.err)

/-- Every run ends (70_reset_and_hazards.md R279, under the fairness of 40_commands.md R116 as log 1 builds it in): from
every state that meets the invariant, reset applied, a run reaches its end within four steps for each event left and
three more; what the environment would do after the end (a reset edge, an ENGINE turn) does not enter the final state,
and the values read before stand first in the observable result. -/
def Obligations.EveryRunEnds : Prop :=
  ∀ s : State, Inv s → s.rst ≠ .unapplied →
    (∃ t, runToEnd (4 * s.env.length + 3) s = some t ∧ (∀ a, Event.access a ∉ t.env) ∧ t.held = none ∧
      t.work = .none ∧ t.busy = false ∧ ∃ vs, observed t = observed s ++ vs) ∧
    ((∀ a, Event.access a ∉ s.env) → s.held = none → s.work = .none → ∀ n, runToEnd n s = some s)

/-- No state is stuck: once the ENGINE has had its turn, ABORT leads to IDLE, from every state whose BUSY comes with
work; a reset edge leads to IDLE at once, from every state (60_exceptions.md R250). -/
def Obligations.EveryStateReachesIdle : Prop :=
  ∀ s : State,
    ((s.busy = true → s.work = .running) →
      ∃ t, exec .abort (engineTurn s) = .next t ∧ t.phase = .idle ∧ t.err = .none ∧ t.busy = false) ∧
    ∃ t, step { s with env := .rstLow :: s.env } = .next t ∧ t.phase = .idle ∧ t.err = .none ∧ t.busy = false

/-- Streaming equivalence (40_commands.md R114): for a fixed configuration the digest depends only on the bytes
absorbed. From one ACTIVE session, two ways of feeding the same bytes by MSG writes and ABSORBs of any sizes, zero
included, each followed by FINAL, all complete and leave the same DIGEST. -/
def Obligations.DigestIndependentOfChunking : Prop :=
  ∀ (s : State) (cs ds : List Chunk), s.busy = false → s.work = .none → s.phase = .active →
    chunksWellFormed cs → chunksWellFormed ds → cs.flatMap chunkBytes = ds.flatMap chunkBytes →
    s.count.toNat + 8 * (cs.flatMap chunkBytes).length ≤ 2 ^ 64 - 1 →
    ∃ t t', performAll (cs.flatMap chunkInstrs ++ [.final]) s = .next t ∧
      performAll (ds.flatMap chunkInstrs ++ [.final]) s = .next t' ∧
      t.phase = .done ∧ t'.phase = .done ∧ t.busy = false ∧ t.digest = t'.digest

/-- A session computes HAVAL: from any idle engine START p, w, then data accesses of any sizes, then FINAL, leave in
DIGEST the digest of the bytes absorbed, and 0 in the words from w on (40_commands.md R113, R115, 42_padding.md R170). -/
def Obligations.SessionComputesDigest : Prop :=
  ∀ (s : State) (p : BitVec 3) (w : BitVec 4) (cs : List Chunk), s.busy = false → s.work = .none →
    supported p w = true → chunksWellFormed cs → 8 * (cs.flatMap chunkBytes).length ≤ 2 ^ 64 - 1 →
    ∃ t, performAll (.start p w :: cs.flatMap chunkInstrs ++ [.final]) s = .next t ∧
      t.phase = .done ∧ t.busy = false ∧ t.err = .none ∧ t.cfgWords = w ∧
      t.digest = digestOf p w (cs.flatMap chunkBytes) ∧ ∀ i < 8, w.toNat ≤ i → wordAt t.digest i = 0
end

