-- ==== Sys2Proof/Laws/Memory.lean ====
section
/-! SUPPORT. Byte storage: read after write, and that a write keeps the canonical form and the index range of BLK. -/

namespace Sys2Proof.Machine

@[simp] theorem Memory.read_nil (a : Nat) : Memory.read [] a = 0 := rfl

theorem Memory.read_cell (k : Nat) (c : Byte) (rest : List Host.Cell) (a : Nat) :
    Memory.read ((k, c) :: rest) a = if k = a then c else Memory.read rest a := rfl

/-- An address below every listed one reads as an unlisted address does. -/
theorem Memory.read_below (m : List Host.Cell) (a : Nat) (h : ∀ x ∈ m, a < x.1) : Memory.read m a = 0 := by
  induction m with
  | nil => rfl
  | cons x rest ih =>
    obtain ⟨k, c⟩ := x
    have hk : a < k := h (k, c) (by simp)
    rw [Memory.read_cell, if_neg (by omega), ih fun y hy => h y (by simp [hy])]

theorem Memory.read_cons (a : Nat) (b : Byte) (rest : List Host.Cell) (h : ∀ x ∈ rest, a < x.1) (n : Nat) :
    Memory.read (Memory.cons a b rest) n = if n = a then b else Memory.read rest n := by
  unfold Memory.cons
  split
  · next hb =>
    split
    · next hn => subst hn; rw [hb]; exact Memory.read_below rest n h
    · rfl
  · rw [Memory.read_cell]
    by_cases hn : n = a
    · simp [hn]
    · rw [if_neg fun e => hn e.symm, if_neg hn]

theorem Memory.cons_keys {a : Nat} {b : Byte} {rest : List Host.Cell} {x : Host.Cell}
    (hx : x ∈ Memory.cons a b rest) : x = (a, b) ∨ x ∈ rest := by
  unfold Memory.cons at hx
  split at hx
  · exact .inr hx
  · simpa using hx

theorem Memory.cons_wf {a : Nat} {b : Byte} {rest : List Host.Cell} (hr : Memory.wf rest)
    (h : ∀ x ∈ rest, a < x.1) : Memory.wf (Memory.cons a b rest) := by
  unfold Memory.cons
  split
  · exact hr
  · next hb =>
    refine ⟨List.pairwise_cons.2 ⟨fun x hx => h x hx, hr.1⟩, fun x hx => ?_⟩
    rcases List.mem_cons.1 hx with rfl | hx
    · exact hb
    · exact hr.2 x hx

/-- Every cell of a written memory is the written one or an old one. -/
theorem Memory.write_keys {m : List Host.Cell} {a : Nat} {b : Byte} {x : Host.Cell}
    (hx : x ∈ Memory.write m a b) : x = (a, b) ∨ x ∈ m := by
  induction m with
  | nil => simpa using Memory.cons_keys hx
  | cons y rest ih =>
    obtain ⟨k, c⟩ := y
    simp only [Memory.write] at hx
    split at hx
    · exact Memory.cons_keys hx
    · split at hx
      · rcases Memory.cons_keys hx with h | h
        · exact .inl h
        · exact .inr (by simp [h])
      · rcases List.mem_cons.1 hx with rfl | h
        · exact .inr (by simp)
        · rcases ih h with h | h
          · exact .inl h
          · exact .inr (by simp [h])

/-- A write keeps the canonical form. -/
theorem Memory.write_wf {m : List Host.Cell} (hm : Memory.wf m) (a : Nat) (b : Byte) :
    Memory.wf (Memory.write m a b) := by
  induction m with
  | nil => exact Memory.cons_wf hm (by simp)
  | cons y rest ih =>
    obtain ⟨k, c⟩ := y
    obtain ⟨hp, hz⟩ := hm
    obtain ⟨hk, hp⟩ := List.pairwise_cons.1 hp
    have hrest : Memory.wf rest := ⟨hp, fun x hx => hz x (by simp [hx])⟩
    simp only [Memory.write]
    split
    · next hlt =>
      refine Memory.cons_wf ⟨List.pairwise_cons.2 ⟨hk, hp⟩, hz⟩ fun x hx => ?_
      rcases List.mem_cons.1 hx with rfl | hx
      · exact hlt
      · exact Nat.lt_trans hlt (hk x hx)
    · split
      · next heq => exact Memory.cons_wf hrest fun x hx => heq ▸ hk x hx
      · have hlt : k < a := by omega
        refine ⟨List.pairwise_cons.2 ⟨fun x hx => ?_, (ih hrest).1⟩, fun x hx => ?_⟩
        · rcases Memory.write_keys hx with rfl | hx
          · exact hlt
          · exact hk x hx
        · rcases List.mem_cons.1 hx with rfl | hx
          · exact hz _ (by simp)
          · exact (ih hrest).2 x hx

/-- A write inside BLK keeps every listed address inside BLK. -/
theorem Memory.write_inBlock {m : List Host.Cell} (hm : Memory.inBlock m) {a : Nat} (ha : a < 128) (b : Byte) :
    Memory.inBlock (Memory.write m a b) := by
  intro x hx
  rcases Memory.write_keys hx with rfl | hx
  · exact ha
  · exact hm x hx

/-- Read after write: the written address gives the written byte, every other address what it gave before. -/
theorem Memory.read_write {m : List Host.Cell} (hm : Memory.wf m) (a : Nat) (b : Byte) (n : Nat) :
    Memory.read (Memory.write m a b) n = if n = a then b else Memory.read m n := by
  induction m with
  | nil => exact Memory.read_cons a b [] (by simp) n
  | cons y rest ih =>
    obtain ⟨k, c⟩ := y
    obtain ⟨hp, hz⟩ := hm
    obtain ⟨hk, hp⟩ := List.pairwise_cons.1 hp
    simp only [Memory.write]
    split
    · next hlt =>
      refine Memory.read_cons a b _ (fun x hx => ?_) n
      rcases List.mem_cons.1 hx with rfl | hx
      · exact hlt
      · exact Nat.lt_trans hlt (hk x hx)
    · split
      · next heq =>
        rw [Memory.read_cons a b rest (fun x hx => heq ▸ hk x hx), Memory.read_cell]
        by_cases hn : n = a
        · simp [hn]
        · rw [if_neg hn, if_neg hn, if_neg fun e => hn (by omega)]
      · next hne =>
        rw [Memory.read_cell, Memory.read_cell, ih ⟨hp, fun x hx => hz x (by simp [hx])⟩]
        by_cases hn : n = a
        · rw [if_pos hn, if_pos hn, if_neg fun e => hne (by omega)]
        · rw [if_neg hn, if_neg hn]

/-- The memory of `State.reset` is canonical and inside BLK. -/
theorem Memory.reset_wf : Memory.wf State.reset.blk ∧ Memory.inBlock State.reset.blk := by
  exact ⟨⟨List.Pairwise.nil, by simp [State.reset]⟩, by simp [State.reset]⟩

end Sys2Proof.Machine
end

