-- ==== Sys2Proof/Laws/State.lean ====
section
/-! SUPPORT. One lemma per field of State per shared update, so that no later proof unfolds a record update. -/

namespace Sys2Proof.Machine

/-! ## ClearSession (40_commands.md R103) -/

@[simp] theorem clearSession_fp (s : State) : (clearSession s).fp = zeroWords8 := rfl
@[simp] theorem clearSession_count (s : State) : (clearSession s).count = 0 := rfl
@[simp] theorem clearSession_blk (s : State) : (clearSession s).blk = [] := rfl
@[simp] theorem clearSession_phase (s : State) : (clearSession s).phase = s.phase := rfl
@[simp] theorem clearSession_err (s : State) : (clearSession s).err = s.err := rfl
@[simp] theorem clearSession_cfgPasses (s : State) : (clearSession s).cfgPasses = s.cfgPasses := rfl
@[simp] theorem clearSession_cfgWords (s : State) : (clearSession s).cfgWords = s.cfgWords := rfl
@[simp] theorem clearSession_data (s : State) : (clearSession s).data = s.data := rfl
@[simp] theorem clearSession_digest (s : State) : (clearSession s).digest = s.digest := rfl
@[simp] theorem clearSession_busy (s : State) : (clearSession s).busy = s.busy := rfl
@[simp] theorem clearSession_work (s : State) : (clearSession s).work = s.work := rfl
@[simp] theorem clearSession_t (s : State) : (clearSession s).t = s.t := rfl
@[simp] theorem clearSession_seqRound (s : State) : (clearSession s).seqRound = s.seqRound := rfl
@[simp] theorem clearSession_seqStep (s : State) : (clearSession s).seqStep = s.seqStep := rfl
@[simp] theorem clearSession_rst (s : State) : (clearSession s).rst = s.rst := rfl
@[simp] theorem clearSession_held (s : State) : (clearSession s).held = s.held := rfl
@[simp] theorem clearSession_reads (s : State) : (clearSession s).reads = s.reads := rfl
@[simp] theorem clearSession_draws (s : State) : (clearSession s).draws = s.draws := rfl
@[simp] theorem clearSession_env (s : State) : (clearSession s).env = s.env := rfl

/-! ## Fail (60_exceptions.md R248) -/

@[simp] theorem fail_fp (c : ErrCode) (s : State) : (fail c s).fp = zeroWords8 := rfl
@[simp] theorem fail_count (c : ErrCode) (s : State) : (fail c s).count = 0 := rfl
@[simp] theorem fail_blk (c : ErrCode) (s : State) : (fail c s).blk = [] := rfl
@[simp] theorem fail_phase (c : ErrCode) (s : State) : (fail c s).phase = .failed := rfl
@[simp] theorem fail_err (c : ErrCode) (s : State) : (fail c s).err = if s.err = .none then c else s.err := rfl
@[simp] theorem fail_cfgPasses (c : ErrCode) (s : State) : (fail c s).cfgPasses = 0 := rfl
@[simp] theorem fail_cfgWords (c : ErrCode) (s : State) : (fail c s).cfgWords = 0 := rfl
@[simp] theorem fail_data (c : ErrCode) (s : State) : (fail c s).data = s.data := rfl
@[simp] theorem fail_digest (c : ErrCode) (s : State) : (fail c s).digest = zeroWords8 := rfl
@[simp] theorem fail_busy (c : ErrCode) (s : State) : (fail c s).busy = s.busy := rfl
@[simp] theorem fail_work (c : ErrCode) (s : State) : (fail c s).work = s.work := rfl
@[simp] theorem fail_t (c : ErrCode) (s : State) : (fail c s).t = s.t := rfl
@[simp] theorem fail_seqRound (c : ErrCode) (s : State) : (fail c s).seqRound = s.seqRound := rfl
@[simp] theorem fail_seqStep (c : ErrCode) (s : State) : (fail c s).seqStep = s.seqStep := rfl
@[simp] theorem fail_rst (c : ErrCode) (s : State) : (fail c s).rst = s.rst := rfl
@[simp] theorem fail_held (c : ErrCode) (s : State) : (fail c s).held = s.held := rfl
@[simp] theorem fail_reads (c : ErrCode) (s : State) : (fail c s).reads = s.reads := rfl
@[simp] theorem fail_draws (c : ErrCode) (s : State) : (fail c s).draws = s.draws := rfl
@[simp] theorem fail_env (c : ErrCode) (s : State) : (fail c s).env = s.env := rfl

/-! ## WORK and BUSY set -/

@[simp] theorem startWork_fp (s : State) : (startWork s).fp = s.fp := rfl
@[simp] theorem startWork_count (s : State) : (startWork s).count = s.count := rfl
@[simp] theorem startWork_blk (s : State) : (startWork s).blk = s.blk := rfl
@[simp] theorem startWork_phase (s : State) : (startWork s).phase = s.phase := rfl
@[simp] theorem startWork_err (s : State) : (startWork s).err = s.err := rfl
@[simp] theorem startWork_cfgPasses (s : State) : (startWork s).cfgPasses = s.cfgPasses := rfl
@[simp] theorem startWork_cfgWords (s : State) : (startWork s).cfgWords = s.cfgWords := rfl
@[simp] theorem startWork_data (s : State) : (startWork s).data = s.data := rfl
@[simp] theorem startWork_digest (s : State) : (startWork s).digest = s.digest := rfl
@[simp] theorem startWork_busy (s : State) : (startWork s).busy = true := rfl
@[simp] theorem startWork_work (s : State) : (startWork s).work = .running := rfl
@[simp] theorem startWork_t (s : State) : (startWork s).t = s.t := rfl
@[simp] theorem startWork_seqRound (s : State) : (startWork s).seqRound = s.seqRound := rfl
@[simp] theorem startWork_seqStep (s : State) : (startWork s).seqStep = s.seqStep := rfl
@[simp] theorem startWork_rst (s : State) : (startWork s).rst = s.rst := rfl
@[simp] theorem startWork_held (s : State) : (startWork s).held = s.held := rfl
@[simp] theorem startWork_reads (s : State) : (startWork s).reads = s.reads := rfl
@[simp] theorem startWork_draws (s : State) : (startWork s).draws = s.draws := rfl
@[simp] theorem startWork_env (s : State) : (startWork s).env = s.env := rfl

/-! ## the compression of a full block -/

@[simp] theorem compressBlock_fp (s : State) : (compressBlock s).fp = compress s.fp s.blk s.cfgPasses := rfl
@[simp] theorem compressBlock_count (s : State) : (compressBlock s).count = s.count := rfl
@[simp] theorem compressBlock_blk (s : State) : (compressBlock s).blk = s.blk := rfl
@[simp] theorem compressBlock_phase (s : State) : (compressBlock s).phase = s.phase := rfl
@[simp] theorem compressBlock_err (s : State) : (compressBlock s).err = s.err := rfl
@[simp] theorem compressBlock_cfgPasses (s : State) : (compressBlock s).cfgPasses = s.cfgPasses := rfl
@[simp] theorem compressBlock_cfgWords (s : State) : (compressBlock s).cfgWords = s.cfgWords := rfl
@[simp] theorem compressBlock_data (s : State) : (compressBlock s).data = s.data := rfl
@[simp] theorem compressBlock_digest (s : State) : (compressBlock s).digest = s.digest := rfl
@[simp] theorem compressBlock_busy (s : State) : (compressBlock s).busy = true := rfl
@[simp] theorem compressBlock_work (s : State) : (compressBlock s).work = .running := rfl
@[simp] theorem compressBlock_t (s : State) : (compressBlock s).t = working s.fp s.blk s.cfgPasses := rfl
@[simp] theorem compressBlock_seqRound (s : State) : (compressBlock s).seqRound = s.cfgPasses := rfl
@[simp] theorem compressBlock_seqStep (s : State) : (compressBlock s).seqStep = 31 := rfl
@[simp] theorem compressBlock_rst (s : State) : (compressBlock s).rst = s.rst := rfl
@[simp] theorem compressBlock_held (s : State) : (compressBlock s).held = s.held := rfl
@[simp] theorem compressBlock_reads (s : State) : (compressBlock s).reads = s.reads := rfl
@[simp] theorem compressBlock_draws (s : State) : (compressBlock s).draws = s.draws := rfl
@[simp] theorem compressBlock_env (s : State) : (compressBlock s).env = s.env := rfl

/-! ## a write held -/

@[simp] theorem hold_fp (o : BitVec 5) (v : Word) (s : State) : (hold o v s).fp = s.fp := rfl
@[simp] theorem hold_count (o : BitVec 5) (v : Word) (s : State) : (hold o v s).count = s.count := rfl
@[simp] theorem hold_blk (o : BitVec 5) (v : Word) (s : State) : (hold o v s).blk = s.blk := rfl
@[simp] theorem hold_phase (o : BitVec 5) (v : Word) (s : State) : (hold o v s).phase = s.phase := rfl
@[simp] theorem hold_err (o : BitVec 5) (v : Word) (s : State) : (hold o v s).err = s.err := rfl
@[simp] theorem hold_cfgPasses (o : BitVec 5) (v : Word) (s : State) : (hold o v s).cfgPasses = s.cfgPasses := rfl
@[simp] theorem hold_cfgWords (o : BitVec 5) (v : Word) (s : State) : (hold o v s).cfgWords = s.cfgWords := rfl
@[simp] theorem hold_data (o : BitVec 5) (v : Word) (s : State) : (hold o v s).data = s.data := rfl
@[simp] theorem hold_digest (o : BitVec 5) (v : Word) (s : State) : (hold o v s).digest = s.digest := rfl
@[simp] theorem hold_busy (o : BitVec 5) (v : Word) (s : State) : (hold o v s).busy = s.busy := rfl
@[simp] theorem hold_work (o : BitVec 5) (v : Word) (s : State) : (hold o v s).work = s.work := rfl
@[simp] theorem hold_t (o : BitVec 5) (v : Word) (s : State) : (hold o v s).t = s.t := rfl
@[simp] theorem hold_seqRound (o : BitVec 5) (v : Word) (s : State) : (hold o v s).seqRound = s.seqRound := rfl
@[simp] theorem hold_seqStep (o : BitVec 5) (v : Word) (s : State) : (hold o v s).seqStep = s.seqStep := rfl
@[simp] theorem hold_rst (o : BitVec 5) (v : Word) (s : State) : (hold o v s).rst = s.rst := rfl
@[simp] theorem hold_held (o : BitVec 5) (v : Word) (s : State) : (hold o v s).held = some ⟨o, v⟩ := rfl
@[simp] theorem hold_reads (o : BitVec 5) (v : Word) (s : State) : (hold o v s).reads = s.reads := rfl
@[simp] theorem hold_draws (o : BitVec 5) (v : Word) (s : State) : (hold o v s).draws = s.draws := rfl
@[simp] theorem hold_env (o : BitVec 5) (v : Word) (s : State) : (hold o v s).env = s.env := rfl

/-! ## a read answered -/

@[simp] theorem returnRead_fp (v : Word) (s : State) : (returnRead v s).fp = s.fp := rfl
@[simp] theorem returnRead_count (v : Word) (s : State) : (returnRead v s).count = s.count := rfl
@[simp] theorem returnRead_blk (v : Word) (s : State) : (returnRead v s).blk = s.blk := rfl
@[simp] theorem returnRead_phase (v : Word) (s : State) : (returnRead v s).phase = s.phase := rfl
@[simp] theorem returnRead_err (v : Word) (s : State) : (returnRead v s).err = s.err := rfl
@[simp] theorem returnRead_cfgPasses (v : Word) (s : State) : (returnRead v s).cfgPasses = s.cfgPasses := rfl
@[simp] theorem returnRead_cfgWords (v : Word) (s : State) : (returnRead v s).cfgWords = s.cfgWords := rfl
@[simp] theorem returnRead_data (v : Word) (s : State) : (returnRead v s).data = s.data := rfl
@[simp] theorem returnRead_digest (v : Word) (s : State) : (returnRead v s).digest = s.digest := rfl
@[simp] theorem returnRead_busy (v : Word) (s : State) : (returnRead v s).busy = s.busy := rfl
@[simp] theorem returnRead_work (v : Word) (s : State) : (returnRead v s).work = s.work := rfl
@[simp] theorem returnRead_t (v : Word) (s : State) : (returnRead v s).t = s.t := rfl
@[simp] theorem returnRead_seqRound (v : Word) (s : State) : (returnRead v s).seqRound = s.seqRound := rfl
@[simp] theorem returnRead_seqStep (v : Word) (s : State) : (returnRead v s).seqStep = s.seqStep := rfl
@[simp] theorem returnRead_rst (v : Word) (s : State) : (returnRead v s).rst = s.rst := rfl
@[simp] theorem returnRead_held (v : Word) (s : State) : (returnRead v s).held = s.held := rfl
@[simp] theorem returnRead_reads (v : Word) (s : State) : (returnRead v s).reads = s.reads ++ [v] := rfl
@[simp] theorem returnRead_draws (v : Word) (s : State) : (returnRead v s).draws = s.draws := rfl
@[simp] theorem returnRead_env (v : Word) (s : State) : (returnRead v s).env = s.env := rfl

/-! ## the ENGINE step (40_commands.md R116) -/

@[simp] theorem engineStep_fp (s : State) : (engineStep s).fp = s.fp := rfl
@[simp] theorem engineStep_count (s : State) : (engineStep s).count = s.count := rfl
@[simp] theorem engineStep_blk (s : State) : (engineStep s).blk = s.blk := rfl
@[simp] theorem engineStep_phase (s : State) : (engineStep s).phase = s.phase := rfl
@[simp] theorem engineStep_err (s : State) : (engineStep s).err = s.err := rfl
@[simp] theorem engineStep_cfgPasses (s : State) : (engineStep s).cfgPasses = s.cfgPasses := rfl
@[simp] theorem engineStep_cfgWords (s : State) : (engineStep s).cfgWords = s.cfgWords := rfl
@[simp] theorem engineStep_data (s : State) : (engineStep s).data = s.data := rfl
@[simp] theorem engineStep_digest (s : State) : (engineStep s).digest = s.digest := rfl
@[simp] theorem engineStep_busy (s : State) : (engineStep s).busy = false := rfl
@[simp] theorem engineStep_work (s : State) : (engineStep s).work = .none := rfl
@[simp] theorem engineStep_t (s : State) : (engineStep s).t = s.t := rfl
@[simp] theorem engineStep_seqRound (s : State) : (engineStep s).seqRound = s.seqRound := rfl
@[simp] theorem engineStep_seqStep (s : State) : (engineStep s).seqStep = s.seqStep := rfl
@[simp] theorem engineStep_rst (s : State) : (engineStep s).rst = s.rst := rfl
@[simp] theorem engineStep_held (s : State) : (engineStep s).held = s.held := rfl
@[simp] theorem engineStep_reads (s : State) : (engineStep s).reads = s.reads := rfl
@[simp] theorem engineStep_draws (s : State) : (engineStep s).draws = s.draws := rfl
@[simp] theorem engineStep_env (s : State) : (engineStep s).env = s.env := rfl

/-! ## ABORT (40_commands.md R108) -/

@[simp] theorem abortEffect_fp (s : State) : (abortEffect s).fp = zeroWords8 := rfl
@[simp] theorem abortEffect_count (s : State) : (abortEffect s).count = 0 := rfl
@[simp] theorem abortEffect_blk (s : State) : (abortEffect s).blk = [] := rfl
@[simp] theorem abortEffect_phase (s : State) : (abortEffect s).phase = .idle := rfl
@[simp] theorem abortEffect_err (s : State) : (abortEffect s).err = .none := rfl
@[simp] theorem abortEffect_cfgPasses (s : State) : (abortEffect s).cfgPasses = 0 := rfl
@[simp] theorem abortEffect_cfgWords (s : State) : (abortEffect s).cfgWords = 0 := rfl
@[simp] theorem abortEffect_data (s : State) : (abortEffect s).data = s.data := rfl
@[simp] theorem abortEffect_digest (s : State) : (abortEffect s).digest = zeroWords8 := rfl
@[simp] theorem abortEffect_busy (s : State) : (abortEffect s).busy = s.busy := rfl
@[simp] theorem abortEffect_work (s : State) : (abortEffect s).work = s.work := rfl
@[simp] theorem abortEffect_t (s : State) : (abortEffect s).t = s.t := rfl
@[simp] theorem abortEffect_seqRound (s : State) : (abortEffect s).seqRound = s.seqRound := rfl
@[simp] theorem abortEffect_seqStep (s : State) : (abortEffect s).seqStep = s.seqStep := rfl
@[simp] theorem abortEffect_rst (s : State) : (abortEffect s).rst = s.rst := rfl
@[simp] theorem abortEffect_held (s : State) : (abortEffect s).held = s.held := rfl
@[simp] theorem abortEffect_reads (s : State) : (abortEffect s).reads = s.reads := rfl
@[simp] theorem abortEffect_draws (s : State) : (abortEffect s).draws = s.draws := rfl
@[simp] theorem abortEffect_env (s : State) : (abortEffect s).env = s.env := rfl

/-! ## a reset edge (70_reset_and_hazards.md R270) -/

@[simp] theorem resetEdge_fp (s : State) : (resetEdge s).fp = zeroWords8 := rfl
@[simp] theorem resetEdge_count (s : State) : (resetEdge s).count = 0 := rfl
@[simp] theorem resetEdge_blk (s : State) : (resetEdge s).blk = [] := rfl
@[simp] theorem resetEdge_phase (s : State) : (resetEdge s).phase = .idle := rfl
@[simp] theorem resetEdge_err (s : State) : (resetEdge s).err = .none := rfl
@[simp] theorem resetEdge_cfgPasses (s : State) : (resetEdge s).cfgPasses = 0 := rfl
@[simp] theorem resetEdge_cfgWords (s : State) : (resetEdge s).cfgWords = 0 := rfl
@[simp] theorem resetEdge_data (s : State) : (resetEdge s).data = 0 := rfl
@[simp] theorem resetEdge_digest (s : State) : (resetEdge s).digest = zeroWords8 := rfl
@[simp] theorem resetEdge_busy (s : State) : (resetEdge s).busy = false := rfl
@[simp] theorem resetEdge_work (s : State) : (resetEdge s).work = .none := rfl
@[simp] theorem resetEdge_t (s : State) : (resetEdge s).t = zeroWords8 := rfl
@[simp] theorem resetEdge_seqRound (s : State) : (resetEdge s).seqRound = 1 := rfl
@[simp] theorem resetEdge_seqStep (s : State) : (resetEdge s).seqStep = 0 := rfl
@[simp] theorem resetEdge_rst (s : State) : (resetEdge s).rst = .asserted := rfl
@[simp] theorem resetEdge_held (s : State) : (resetEdge s).held = none := rfl
@[simp] theorem resetEdge_reads (s : State) : (resetEdge s).reads = s.reads := rfl
@[simp] theorem resetEdge_draws (s : State) : (resetEdge s).draws = s.draws := rfl
@[simp] theorem resetEdge_env (s : State) : (resetEdge s).env = s.env := rfl

/-! ## One absorbed byte (40_commands.md R101) -/

@[simp] theorem absorbByte_phase (s : State) (b : Byte) : (absorbByte s b).phase = s.phase := by
  unfold absorbByte; dsimp only; split <;> rfl

@[simp] theorem absorbByte_err (s : State) (b : Byte) : (absorbByte s b).err = s.err := by
  unfold absorbByte; dsimp only; split <;> rfl

@[simp] theorem absorbByte_cfgPasses (s : State) (b : Byte) : (absorbByte s b).cfgPasses = s.cfgPasses := by
  unfold absorbByte; dsimp only; split <;> rfl

@[simp] theorem absorbByte_cfgWords (s : State) (b : Byte) : (absorbByte s b).cfgWords = s.cfgWords := by
  unfold absorbByte; dsimp only; split <;> rfl

@[simp] theorem absorbByte_data (s : State) (b : Byte) : (absorbByte s b).data = s.data := by
  unfold absorbByte; dsimp only; split <;> rfl

@[simp] theorem absorbByte_digest (s : State) (b : Byte) : (absorbByte s b).digest = s.digest := by
  unfold absorbByte; dsimp only; split <;> rfl

@[simp] theorem absorbByte_rst (s : State) (b : Byte) : (absorbByte s b).rst = s.rst := by
  unfold absorbByte; dsimp only; split <;> rfl

@[simp] theorem absorbByte_held (s : State) (b : Byte) : (absorbByte s b).held = s.held := by
  unfold absorbByte; dsimp only; split <;> rfl

@[simp] theorem absorbByte_reads (s : State) (b : Byte) : (absorbByte s b).reads = s.reads := by
  unfold absorbByte; dsimp only; split <;> rfl

@[simp] theorem absorbByte_draws (s : State) (b : Byte) : (absorbByte s b).draws = s.draws := by
  unfold absorbByte; dsimp only; split <;> rfl

@[simp] theorem absorbByte_env (s : State) (b : Byte) : (absorbByte s b).env = s.env := by
  unfold absorbByte; dsimp only; split <;> rfl

@[simp] theorem absorbByte_count (s : State) (b : Byte) : (absorbByte s b).count = s.count + 8 := by
  unfold absorbByte; dsimp only; split <;> rfl

@[simp] theorem absorbByte_blk (s : State) (b : Byte) :
    (absorbByte s b).blk = Memory.write s.blk (pend s.count) b := by
  unfold absorbByte; dsimp only; split <;> rfl

/-! ## Absorbed bytes -/

@[simp] theorem foldl_absorbByte_phase (bs : List Byte) (s : State) : (bs.foldl absorbByte s).phase = s.phase := by
  induction bs generalizing s with
  | nil => simp only [List.foldl_nil]
  | cons b bs ih => simp only [List.foldl_cons, ih, absorbByte_phase]

@[simp] theorem foldl_absorbByte_err (bs : List Byte) (s : State) : (bs.foldl absorbByte s).err = s.err := by
  induction bs generalizing s with
  | nil => simp only [List.foldl_nil]
  | cons b bs ih => simp only [List.foldl_cons, ih, absorbByte_err]

@[simp] theorem foldl_absorbByte_cfgPasses (bs : List Byte) (s : State) : (bs.foldl absorbByte s).cfgPasses = s.cfgPasses := by
  induction bs generalizing s with
  | nil => simp only [List.foldl_nil]
  | cons b bs ih => simp only [List.foldl_cons, ih, absorbByte_cfgPasses]

@[simp] theorem foldl_absorbByte_cfgWords (bs : List Byte) (s : State) : (bs.foldl absorbByte s).cfgWords = s.cfgWords := by
  induction bs generalizing s with
  | nil => simp only [List.foldl_nil]
  | cons b bs ih => simp only [List.foldl_cons, ih, absorbByte_cfgWords]

@[simp] theorem foldl_absorbByte_data (bs : List Byte) (s : State) : (bs.foldl absorbByte s).data = s.data := by
  induction bs generalizing s with
  | nil => simp only [List.foldl_nil]
  | cons b bs ih => simp only [List.foldl_cons, ih, absorbByte_data]

@[simp] theorem foldl_absorbByte_digest (bs : List Byte) (s : State) : (bs.foldl absorbByte s).digest = s.digest := by
  induction bs generalizing s with
  | nil => simp only [List.foldl_nil]
  | cons b bs ih => simp only [List.foldl_cons, ih, absorbByte_digest]

@[simp] theorem foldl_absorbByte_rst (bs : List Byte) (s : State) : (bs.foldl absorbByte s).rst = s.rst := by
  induction bs generalizing s with
  | nil => simp only [List.foldl_nil]
  | cons b bs ih => simp only [List.foldl_cons, ih, absorbByte_rst]

@[simp] theorem foldl_absorbByte_held (bs : List Byte) (s : State) : (bs.foldl absorbByte s).held = s.held := by
  induction bs generalizing s with
  | nil => simp only [List.foldl_nil]
  | cons b bs ih => simp only [List.foldl_cons, ih, absorbByte_held]

@[simp] theorem foldl_absorbByte_reads (bs : List Byte) (s : State) : (bs.foldl absorbByte s).reads = s.reads := by
  induction bs generalizing s with
  | nil => simp only [List.foldl_nil]
  | cons b bs ih => simp only [List.foldl_cons, ih, absorbByte_reads]

@[simp] theorem foldl_absorbByte_draws (bs : List Byte) (s : State) : (bs.foldl absorbByte s).draws = s.draws := by
  induction bs generalizing s with
  | nil => simp only [List.foldl_nil]
  | cons b bs ih => simp only [List.foldl_cons, ih, absorbByte_draws]

@[simp] theorem foldl_absorbByte_env (bs : List Byte) (s : State) : (bs.foldl absorbByte s).env = s.env := by
  induction bs generalizing s with
  | nil => simp only [List.foldl_nil]
  | cons b bs ih => simp only [List.foldl_cons, ih, absorbByte_env]

/-! ## The ENGINE's turn -/

@[simp] theorem engineTurn_running {s : State} (h : s.work = .running) : engineTurn s = engineStep s := by
  simp [engineTurn, h]

@[simp] theorem engineTurn_none {s : State} (h : s.work = .none) : engineTurn s = s := by
  simp [engineTurn, h]

@[simp] theorem engineTurn_fp (s : State) : (engineTurn s).fp = s.fp := by
  unfold engineTurn; split <;> rfl

@[simp] theorem engineTurn_count (s : State) : (engineTurn s).count = s.count := by
  unfold engineTurn; split <;> rfl

@[simp] theorem engineTurn_blk (s : State) : (engineTurn s).blk = s.blk := by
  unfold engineTurn; split <;> rfl

@[simp] theorem engineTurn_phase (s : State) : (engineTurn s).phase = s.phase := by
  unfold engineTurn; split <;> rfl

@[simp] theorem engineTurn_err (s : State) : (engineTurn s).err = s.err := by
  unfold engineTurn; split <;> rfl

@[simp] theorem engineTurn_cfgPasses (s : State) : (engineTurn s).cfgPasses = s.cfgPasses := by
  unfold engineTurn; split <;> rfl

@[simp] theorem engineTurn_cfgWords (s : State) : (engineTurn s).cfgWords = s.cfgWords := by
  unfold engineTurn; split <;> rfl

@[simp] theorem engineTurn_data (s : State) : (engineTurn s).data = s.data := by
  unfold engineTurn; split <;> rfl

@[simp] theorem engineTurn_digest (s : State) : (engineTurn s).digest = s.digest := by
  unfold engineTurn; split <;> rfl

@[simp] theorem engineTurn_t (s : State) : (engineTurn s).t = s.t := by
  unfold engineTurn; split <;> rfl

@[simp] theorem engineTurn_seqRound (s : State) : (engineTurn s).seqRound = s.seqRound := by
  unfold engineTurn; split <;> rfl

@[simp] theorem engineTurn_seqStep (s : State) : (engineTurn s).seqStep = s.seqStep := by
  unfold engineTurn; split <;> rfl

@[simp] theorem engineTurn_rst (s : State) : (engineTurn s).rst = s.rst := by
  unfold engineTurn; split <;> rfl

@[simp] theorem engineTurn_held (s : State) : (engineTurn s).held = s.held := by
  unfold engineTurn; split <;> rfl

@[simp] theorem engineTurn_reads (s : State) : (engineTurn s).reads = s.reads := by
  unfold engineTurn; split <;> rfl

@[simp] theorem engineTurn_draws (s : State) : (engineTurn s).draws = s.draws := by
  unfold engineTurn; split <;> rfl

@[simp] theorem engineTurn_env (s : State) : (engineTurn s).env = s.env := by
  unfold engineTurn; split <;> rfl

/-! ## A stalling write (20_memory.md R58) -/

theorem whenAccepted_idle {s : State} (h : s.busy = false) (o : BitVec 5) (v : Word) (e : State → State) :
    whenAccepted o v e s = e s := by simp [whenAccepted, h]

theorem whenAccepted_busy {s : State} (h : s.busy = true) (o : BitVec 5) (v : Word) (e : State → State) :
    whenAccepted o v e s = hold o v s := by simp [whenAccepted, h]

end Sys2Proof.Machine
end

