-- ==== Sys2Proof/Laws/Words.lean ====
section
/-! SUPPORT. Eight-word arrays, words and bytes, and how Compress depends on its block. -/

namespace Sys2Proof.Machine

theorem wordAt_of_lt (v : Words8) (j : Nat) (h : j < 8) : wordAt v j = v[j] := by
  simp [wordAt, Nat.mod_eq_of_lt h]

theorem wordAt_mod (v : Words8) (j : Nat) : wordAt v (j % 8) = wordAt v j := by
  simp [wordAt]

theorem wordAt_setWordAt (v : Words8) (i j : Nat) (x : Word) :
    wordAt (setWordAt v i x) j = if j % 8 = i % 8 then x else wordAt v j := by
  simp only [wordAt, setWordAt, Vector.getElem_set]
  by_cases h : i % 8 = j % 8
  · simp [h]
  · rw [if_neg h, if_neg fun e => h e.symm]

/-- Two eight-word arrays with the same elements are equal. -/
theorem words8_ext {a b : Words8} (h : ∀ j, j < 8 → wordAt a j = wordAt b j) : a = b := by
  apply Vector.ext
  intro j hj
  simpa [wordAt_of_lt, hj] using h j hj

@[simp] theorem wordAt_zeroWords8 (j : Nat) : wordAt zeroWords8 j = 0 := by
  simp [wordAt, zeroWords8]

/-- Chaining is element-wise addition (41_compression.md R147). -/
@[simp] theorem wordAt_addWords8 (a b : Words8) (j : Nat) : wordAt (addWords8 a b) j = wordAt a j + wordAt b j := by
  simp [wordAt, addWords8]

/-- The output multiplexer, element by element (43_tailoring.md R195). -/
theorem wordAt_digestMux (d : Words8) (w : BitVec 4) {i : Nat} (h : i < 8) :
    wordAt (digestMux d w) i = if i < w.toNat then wordAt d i else 0 := by
  rw [wordAt_of_lt _ _ h]
  simp [digestMux]

@[simp] theorem lowBytes_length (n : Nat) (w : Word) : (lowBytes n w).length = n := by simp [lowBytes]

theorem lowBytes_getElem (n : Nat) (w : Word) (k : Nat) (h : k < (lowBytes n w).length) :
    (lowBytes n w)[k] = byteOf k w := by simp [lowBytes]

/-- 1 ≤ padlen ≤ 128 and the padded length is 118 mod 128 (42_padding.md R171). -/
theorem padding_length (rmd : Nat) (h : rmd < 128) : (padding rmd).length = padLength rmd := by
  simp only [padding, List.length_cons, List.length_replicate]
  unfold padLength
  split <;> omega

@[simp] theorem tailBytes_length (p : BitVec 3) (w : BitVec 4) (c : BitVec 64) : (tailBytes p w c).length = 10 := by
  simp [tailBytes]

theorem pend_lt (c : BitVec 64) : pend c < 128 := (c.extractLsb' 3 7).isLt

/-- PEND from the count as a number (10_state.md R23). -/
theorem pend_eq (c : BitVec 64) : pend c = c.toNat / 8 % 128 := by
  simp [pend, Nat.shiftRight_eq_div_pow]

/-- A step of a round reads the block only at the word its order names (41_compression.md R146). -/
theorem roundStep_congr {r : RoundTable} {w w' : Nat → Word} (i : Nat) (h : w (r.ord.getD i 0) = w' (r.ord.getD i 0))
    (t : Words8) : roundStep r w t i = roundStep r w' t i := by
  simp only [roundStep, newWord, h]

/-- A round reads only words 0 to 31 when its order does. -/
theorem runRound_congr {r : RoundTable} {w w' : Nat → Word} (ho : ∀ i < 32, r.ord.getD i 0 < 32)
    (h : ∀ j < 32, w j = w' j) (t : Words8) : runRound w t r = runRound w' t r := by
  unfold runRound
  have : ∀ (l : List Nat), (∀ i ∈ l, i < 32) → ∀ t, l.foldl (roundStep r w) t = l.foldl (roundStep r w') t := by
    intro l
    induction l with
    | nil => intros; simp only [List.foldl_nil]
    | cons i l ih =>
      intro hl t
      simp only [List.foldl_cons, roundStep_congr i (h _ (ho i (hl i (by simp)))) t]
      exact ih (fun j hj => hl j (by simp [hj])) _
  exact this _ (fun i hi => List.mem_range.1 hi) t

theorem roundTables_ord_mem {p : BitVec 3} {r : RoundTable} (hr : r ∈ roundTables p) :
    r.ord ∈ [ord1, ord2, ord3, ord4, ord5] := by
  unfold roundTables at hr
  split_ifs at hr <;>
    simp only [List.cons_append, List.nil_append, List.mem_cons, List.not_mem_nil, or_false] at hr
  · rcases hr with rfl | rfl | rfl <;> simp only [List.mem_cons, true_or, or_true]
  · rcases hr with rfl | rfl | rfl | rfl <;> simp only [List.mem_cons, true_or, or_true]
  · rcases hr with rfl | rfl | rfl | rfl | rfl <;> simp only [List.mem_cons, true_or, or_true]

/-- Every order names block words 0 to 31 (45_tables.md R219 to R222). -/
theorem roundTables_ord {p : BitVec 3} {r : RoundTable} (hr : r ∈ roundTables p) : ∀ i < 32, r.ord.getD i 0 < 32 :=
  have h : ∀ o ∈ [ord1, ord2, ord3, ord4, ord5], ∀ i < 32, o.getD i 0 < 32 := by decide
  h _ (roundTables_ord_mem hr)

theorem foldl_runRound_congr {w w' : Nat → Word} (h : ∀ j < 32, w j = w' j) (l : List RoundTable)
    (hl : ∀ r ∈ l, ∀ i < 32, r.ord.getD i 0 < 32) (t : Words8) : l.foldl (runRound w) t = l.foldl (runRound w') t := by
  induction l generalizing t with
  | nil => simp only [List.foldl_nil]
  | cons r l ih =>
    have hr : runRound w t r = runRound w' t r := runRound_congr (hl r List.mem_cons_self) h t
    simp only [List.foldl_cons, hr]
    exact ih (fun x hx => hl x (List.mem_cons_of_mem _ hx)) _

/-- A compression reads only words 0 to 31 of its block. -/
theorem runRounds_congr {w w' : Nat → Word} (h : ∀ j < 32, w j = w' j) (p : BitVec 3) (fp : Words8) :
    runRounds w p fp = runRounds w' p fp :=
  foldl_runRound_congr h _ (fun _ hr => roundTables_ord hr) fp

end Sys2Proof.Machine
end

