-- ==== Sys2Proof/Laws/Absorb.lean ====
section
/-! SUPPORT. What absorbing a run of bytes does, as long as it completes no block, and when it completes one
(40_commands.md R101). -/

namespace Sys2Proof.Machine

/-! ## Bytes stored one after the other -/

/-- The bytes `bs` written from index `n` on. -/
def storeBytes (m : List Host.Cell) (n : Nat) : List Byte → List Host.Cell
  | [] => m
  | b :: bs => storeBytes (Memory.write m n b) (n + 1) bs

theorem storeBytes_wf {m : List Host.Cell} (hm : Memory.wf m) (n : Nat) (bs : List Byte) :
    Memory.wf (storeBytes m n bs) := by
  induction bs generalizing m n with
  | nil => exact hm
  | cons b bs ih => exact ih (Memory.write_wf hm n b) _

theorem storeBytes_inBlock {m : List Host.Cell} (hm : Memory.inBlock m) (n : Nat) (bs : List Byte)
    (h : n + bs.length ≤ 128) : Memory.inBlock (storeBytes m n bs) := by
  induction bs generalizing m n with
  | nil => exact hm
  | cons b bs ih =>
    simp only [List.length_cons] at h
    exact ih (Memory.write_inBlock hm (by omega) b) _ (by omega)

/-- What the store of a run of bytes leaves: the bytes at their indexes, every other byte as before. -/
theorem read_storeBytes {m : List Host.Cell} (hm : Memory.wf m) (n : Nat) (bs : List Byte) (k : Nat) :
    Memory.read (storeBytes m n bs) k =
      if n ≤ k ∧ k < n + bs.length then bs.getD (k - n) 0 else Memory.read m k := by
  induction bs generalizing m n with
  | nil => rw [if_neg (by simp)]; rfl
  | cons b bs ih =>
    simp only [storeBytes, ih (Memory.write_wf hm n b), Memory.read_write hm, List.length_cons]
    by_cases h : k = n
    · subst h; simp
    · by_cases h' : n + 1 ≤ k ∧ k < n + 1 + bs.length
      · rw [if_pos h', if_pos (by omega), show k - n = (k - (n + 1)) + 1 by omega]
        simp
      · rw [if_neg h', if_neg h, if_neg (by omega)]

/-! ## PEND along a run -/

theorem pend_add (c : BitVec 64) (n : Nat) : pend (c + BitVec.ofNat 64 (8 * n)) = (pend c + n) % 128 := by
  simp only [pend_eq, BitVec.toNat_add, BitVec.toNat_ofNat]
  omega

theorem pend_succ (c : BitVec 64) : pend (c + 8) = (pend c + 1) % 128 := pend_add c 1

theorem count_succ (c : BitVec 64) (n : Nat) :
    c + 8 + BitVec.ofNat 64 (8 * n) = c + BitVec.ofNat 64 (8 * (n + 1)) := by
  have h8 : (8 : BitVec 64) = BitVec.ofNat 64 8 := rfl
  rw [h8]
  apply BitVec.eq_of_toNat_eq
  simp only [BitVec.toNat_add, BitVec.toNat_ofNat]
  omega

/-! ## A run that completes no block, and one that completes one -/

/-- The bytes `bs` stored from PEND on and counted, with no compression. -/
def storedRun (bs : List Byte) (s : State) : State :=
  { s with blk := storeBytes s.blk (pend s.count) bs, count := s.count + BitVec.ofNat 64 (8 * bs.length) }

@[simp] theorem storedRun_count (bs : List Byte) (s : State) :
    (storedRun bs s).count = s.count + BitVec.ofNat 64 (8 * bs.length) := rfl

@[simp] theorem storedRun_blk (bs : List Byte) (s : State) :
    (storedRun bs s).blk = storeBytes s.blk (pend s.count) bs := rfl

@[simp] theorem storedRun_fp (bs : List Byte) (s : State) : (storedRun bs s).fp = s.fp := rfl

@[simp] theorem storedRun_cfgPasses (bs : List Byte) (s : State) : (storedRun bs s).cfgPasses = s.cfgPasses := rfl

theorem storedRun_nil (s : State) : storedRun [] s = s := by
  simp [storedRun, storeBytes]

theorem absorbByte_open {s : State} (h : pend s.count ≠ 127) (b : Byte) : absorbByte s b = storedRun [b] s := by
  simp [absorbByte, h, storedRun, storeBytes]

theorem absorbByte_fill {s : State} (h : pend s.count = 127) (b : Byte) :
    absorbByte s b = compressBlock (storedRun [b] s) := by
  simp [absorbByte, h, storedRun, storeBytes]

theorem storedRun_cons {s : State} (b : Byte) (bs : List Byte) (h : pend s.count ≠ 127) :
    storedRun (b :: bs) s = storedRun bs (storedRun [b] s) := by
  have hp : pend (s.count + 8) = pend s.count + 1 := by
    have := pend_lt s.count
    rw [pend_succ]; omega
  have h1 : storedRun [b] s = { s with blk := Memory.write s.blk (pend s.count) b, count := s.count + 8 } := rfl
  rw [h1]
  simp only [storedRun, storeBytes, hp, count_succ, List.length_cons]

/-- A run that stays inside the block only stores its bytes and counts them. -/
theorem foldl_absorbByte_open (bs : List Byte) {s : State} (h : pend s.count + bs.length < 128) :
    bs.foldl absorbByte s = storedRun bs s := by
  induction bs generalizing s with
  | nil => rw [List.foldl_nil, storedRun_nil]
  | cons b bs ih =>
    simp only [List.length_cons] at h
    have hp : pend (storedRun [b] s).count + bs.length < 128 := by
      rw [storedRun_count, pend_add, List.length_singleton]; omega
    rw [List.foldl_cons, absorbByte_open (by omega), ih hp, ← storedRun_cons b bs (by omega)]

/-- A run that ends exactly at the end of the block stores its bytes, counts them and compresses the block once. -/
theorem foldl_absorbByte_fill (bs : List Byte) {s : State} (h : pend s.count + bs.length = 128) :
    bs.foldl absorbByte s = compressBlock (storedRun bs s) := by
  induction bs generalizing s with
  | nil => have := pend_lt s.count; simp at h; omega
  | cons b bs ih =>
    simp only [List.length_cons] at h
    by_cases hl : pend s.count = 127
    · obtain rfl : bs = [] := List.length_eq_zero_iff.1 (by omega)
      rw [List.foldl_cons, List.foldl_nil, absorbByte_fill hl]
    · have hp : pend (storedRun [b] s).count + bs.length = 128 := by
        have := pend_lt s.count
        rw [storedRun_count, pend_add, List.length_singleton]; omega
      rw [List.foldl_cons, absorbByte_open hl, ih hp, ← storedRun_cons b bs hl]

/-- A run that crosses the end of the block: the block is filled and compressed, the rest goes to the next one. -/
theorem foldl_absorbByte_cross (bs : List Byte) {s : State} (h : 128 ≤ pend s.count + bs.length)
    (h' : pend s.count + bs.length < 256) :
    bs.foldl absorbByte s =
      storedRun (bs.drop (128 - pend s.count)) (compressBlock (storedRun (bs.take (128 - pend s.count)) s)) := by
  have hlt := pend_lt s.count
  have hhead : (bs.take (128 - pend s.count)).length = 128 - pend s.count := by rw [List.length_take]; omega
  have hp : pend (compressBlock (storedRun (bs.take (128 - pend s.count)) s)).count = 0 := by
    rw [compressBlock_count, storedRun_count, pend_add, hhead]; omega
  conv_lhs => rw [← List.take_append_drop (128 - pend s.count) bs]
  rw [List.foldl_append, foldl_absorbByte_fill (bs.take (128 - pend s.count)) (by omega),
    foldl_absorbByte_open (bs.drop (128 - pend s.count)) (by rw [hp, List.length_drop]; omega)]

/-- Absorbing keeps the count a multiple of 8. -/
theorem foldl_absorbByte_count (bs : List Byte) (s : State) :
    (bs.foldl absorbByte s).count = s.count + BitVec.ofNat 64 (8 * bs.length) := by
  induction bs generalizing s with
  | nil => simp
  | cons b bs ih => rw [List.foldl_cons, ih, absorbByte_count, count_succ, List.length_cons]

/-- Absorbing keeps BLK canonical and within its 128 bytes. -/
theorem foldl_absorbByte_blk (bs : List Byte) {s : State} (hw : Memory.wf s.blk) (hb : Memory.inBlock s.blk) :
    Memory.wf (bs.foldl absorbByte s).blk ∧ Memory.inBlock (bs.foldl absorbByte s).blk := by
  induction bs generalizing s with
  | nil => exact ⟨hw, hb⟩
  | cons b bs ih =>
    rw [List.foldl_cons]
    apply ih
    · rw [absorbByte_blk]; exact Memory.write_wf hw _ _
    · rw [absorbByte_blk]; exact Memory.write_inBlock hb (pend_lt _) _

/-- What absorbing does to BUSY, WORK and the sequencer: nothing, or what a compression does. -/
theorem foldl_absorbByte_work (bs : List Byte) (s : State) :
    ((bs.foldl absorbByte s).busy = s.busy ∧ (bs.foldl absorbByte s).work = s.work
        ∧ (bs.foldl absorbByte s).seqRound = s.seqRound) ∨
      ((bs.foldl absorbByte s).busy = true ∧ (bs.foldl absorbByte s).work = .running
        ∧ (bs.foldl absorbByte s).seqRound = s.cfgPasses) := by
  induction bs generalizing s with
  | nil => exact .inl ⟨rfl, rfl, rfl⟩
  | cons b bs ih =>
    rw [List.foldl_cons]
    by_cases hp : pend s.count = 127
    · rw [absorbByte_fill hp]
      rcases ih (compressBlock (storedRun [b] s)) with ⟨h1, h2, h3⟩ | ⟨h1, h2, h3⟩
      · exact .inr ⟨h1, h2, h3⟩
      · exact .inr ⟨h1, h2, h3⟩
    · rw [absorbByte_open hp]
      rcases ih (storedRun [b] s) with ⟨h1, h2, h3⟩ | ⟨h1, h2, h3⟩
      · exact .inl ⟨h1, h2, h3⟩
      · exact .inr ⟨h1, h2, h3⟩

/-! ## The checked absorb (40_commands.md R102) -/

theorem absorbBytes_seq {s : State} (h : s.phase ≠ .active) (bs : List Byte) : absorbBytes bs s = fail .seq s := by
  simp [absorbBytes, h]

theorem absorbBytes_len {s : State} (h : s.phase = .active) (bs : List Byte)
    (hc : 2 ^ 64 - 1 < s.count.toNat + 8 * bs.length) : absorbBytes bs s = fail .len s := by
  rw [absorbBytes, if_neg (by simp [h]), if_pos hc]

theorem absorbBytes_ok {s : State} (h : s.phase = .active) (bs : List Byte)
    (hc : s.count.toNat + 8 * bs.length ≤ 2 ^ 64 - 1) : absorbBytes bs s = bs.foldl absorbByte s := by
  rw [absorbBytes, if_neg (by simp [h]), if_neg (by omega)]

end Sys2Proof.Machine
end

