-- ==== Sys2Proof/Laws/Decode.lean ====
section
/-! SUPPORT. Command words by their fields, and bus descriptors by their parts. -/

namespace Sys2Proof

/-- Bits 31:16 of a command word, reserved (30_encoding.md R81). -/
abbrev highField (v : Word) : BitVec 16 := v.extractLsb' 16 16

/-- Bit 11 of a command word, reserved (R81). -/
abbrev bit11 (v : Word) : BitVec 1 := v.extractLsb' 11 1

/-- Bit 7 of a command word, reserved (R81). -/
abbrev bit7 (v : Word) : BitVec 1 := v.extractLsb' 7 1

/-- A word is the concatenation of its fields (the diagram of R81). -/
theorem word_fields (v : Word) :
    v = highField v ++ wordsField v ++ bit11 v ++ passesField v ++ bit7 v ++ nbField v ++ opField v := by
  simp only [wordsField, passesField, nbField, opField]
  ext i hi
  simp
  grind

/-- Two words with the same fields are equal. -/
theorem word_ext {v v' : Word} (h16 : highField v = highField v') (hw : wordsField v = wordsField v')
    (h11 : bit11 v = bit11 v') (hp : passesField v = passesField v') (h7 : bit7 v = bit7 v')
    (hn : nbField v = nbField v') (ho : opField v = opField v') : v = v' := by
  rw [word_fields v, word_fields v', h16, hw, h11, hp, h7, hn, ho]

theorem highField_and (v m : Word) : highField (v &&& m) = highField v &&& highField m := by
  simp [highField, BitVec.extractLsb'_and]

theorem wordsField_and (v m : Word) : wordsField (v &&& m) = wordsField v &&& wordsField m := by
  simp [wordsField, BitVec.extractLsb'_and]

theorem bit11_and (v m : Word) : bit11 (v &&& m) = bit11 v &&& bit11 m := by
  simp [bit11, BitVec.extractLsb'_and]

theorem passesField_and (v m : Word) : passesField (v &&& m) = passesField v &&& passesField m := by
  simp [passesField, BitVec.extractLsb'_and]

theorem bit7_and (v m : Word) : bit7 (v &&& m) = bit7 v &&& bit7 m := by
  simp [bit7, BitVec.extractLsb'_and]

theorem nbField_and (v m : Word) : nbField (v &&& m) = nbField v &&& nbField m := by
  simp [nbField, BitVec.extractLsb'_and]

theorem opField_and (v m : Word) : opField (v &&& m) = opField v &&& opField m := by
  simp [opField, BitVec.extractLsb'_and]

/-- A row matches exactly when it does so field by field. -/
theorem rowHit_iff (mask pattern v : Word) :
    rowHit mask pattern v = true ↔
      highField v &&& highField mask = highField pattern ∧ wordsField v &&& wordsField mask = wordsField pattern ∧
      bit11 v &&& bit11 mask = bit11 pattern ∧ passesField v &&& passesField mask = passesField pattern ∧
      bit7 v &&& bit7 mask = bit7 pattern ∧ nbField v &&& nbField mask = nbField pattern ∧
      opField v &&& opField mask = opField pattern := by
  simp only [rowHit, beq_iff_eq, ← highField_and, ← wordsField_and, ← bit11_and, ← passesField_and, ← bit7_and,
    ← nbField_and, ← opField_and]
  constructor
  · rintro h
    simp [h]
  · rintro ⟨h1, h2, h3, h4, h5, h6, h7⟩
    exact word_ext h1 h2 h3 h4 h5 h6 h7

theorem reservedClear_iff (v : Word) : reservedClear v = true ↔ highField v = 0 ∧ bit11 v = 0 ∧ bit7 v = 0 := by
  simp [reservedClear, and_assoc]

theorem and_ones16 (x : BitVec 16) : x &&& 0xFFFF = x := by
  have h : (0xFFFF : BitVec 16) = BitVec.allOnes 16 := by decide
  rw [h, BitVec.and_allOnes]

theorem and_ones4 : ∀ x : BitVec 4, x &&& 0xF = x := by decide

theorem and_ones3 : ∀ x : BitVec 3, x &&& 0x7 = x := by decide

theorem and_ones1 : ∀ x : BitVec 1, x &&& 0x1 = x := by decide

/-- A row that fixes every bit is hit by its one word (R84: NOP, FINAL, ABORT). -/
theorem rowHit_exact (pattern v : Word) : rowHit 0xFFFFFFFF pattern v = true ↔ v = pattern := by
  have h : (0xFFFFFFFF : Word) = BitVec.allOnes 32 := by decide
  rw [rowHit, h, BitVec.and_allOnes, beq_iff_eq]

/-- The row START by fields (R84). -/
theorem isStart_iff (v : Word) :
    isStart v = true ↔ highField v = 0 ∧ bit11 v = 0 ∧ bit7 v = 0 ∧ nbField v = 0 ∧ opField v = 1 := by
  have e1 : highField 0xFFFF08FF = 0xFFFF := by decide
  have e2 : wordsField 0xFFFF08FF = 0 := by decide
  have e3 : bit11 0xFFFF08FF = 1 := by decide
  have e4 : passesField 0xFFFF08FF = 0 := by decide
  have e5 : bit7 0xFFFF08FF = 1 := by decide
  have e6 : nbField 0xFFFF08FF = 7 := by decide
  have e7 : opField 0xFFFF08FF = 0xF := by decide
  have p1 : highField 0x00000001 = 0 := by decide
  have p2 : wordsField 0x00000001 = 0 := by decide
  have p3 : bit11 0x00000001 = 0 := by decide
  have p4 : passesField 0x00000001 = 0 := by decide
  have p5 : bit7 0x00000001 = 0 := by decide
  have p6 : nbField 0x00000001 = 0 := by decide
  have p7 : opField 0x00000001 = 1 := by decide
  rw [isStart, rowHit_iff, e1, e2, e3, e4, e5, e6, e7, p1, p2, p3, p4, p5, p6, p7, and_ones16, and_ones1, and_ones1,
    and_ones3, and_ones4]
  simp

/-- The row ABSORB by fields (R84). -/
theorem isAbsorb_iff (v : Word) :
    isAbsorb v = true ↔
      highField v = 0 ∧ wordsField v = 0 ∧ bit11 v = 0 ∧ passesField v = 0 ∧ bit7 v = 0 ∧ opField v = 2 ∧
        (nbField v).toNat ≤ 4 := by
  have e1 : highField 0xFFFFFF8F = 0xFFFF := by decide
  have e2 : wordsField 0xFFFFFF8F = 0xF := by decide
  have e3 : bit11 0xFFFFFF8F = 1 := by decide
  have e4 : passesField 0xFFFFFF8F = 7 := by decide
  have e5 : bit7 0xFFFFFF8F = 1 := by decide
  have e6 : nbField 0xFFFFFF8F = 0 := by decide
  have e7 : opField 0xFFFFFF8F = 0xF := by decide
  have p1 : highField 0x00000002 = 0 := by decide
  have p2 : wordsField 0x00000002 = 0 := by decide
  have p3 : bit11 0x00000002 = 0 := by decide
  have p4 : passesField 0x00000002 = 0 := by decide
  have p5 : bit7 0x00000002 = 0 := by decide
  have p6 : nbField 0x00000002 = 0 := by decide
  have p7 : opField 0x00000002 = 2 := by decide
  rw [isAbsorb, Bool.and_eq_true, rowHit_iff, e1, e2, e3, e4, e5, e6, e7, p1, p2, p3, p4, p5, p6, p7, and_ones16,
    and_ones4, and_ones1, and_ones3, and_ones1, and_ones4]
  simp [and_assoc]

/-- The fields of a START word (R82, R84). -/
theorem startWord_fields (p : BitVec 3) (w : BitVec 4) :
    highField (startWord p w) = 0 ∧ wordsField (startWord p w) = w ∧ bit11 (startWord p w) = 0 ∧
      passesField (startWord p w) = p ∧ bit7 (startWord p w) = 0 ∧ nbField (startWord p w) = 0 ∧
      opField (startWord p w) = 1 := by
  revert p w; decide

/-- The fields of an ABSORB word (R82, R84). -/
theorem absorbWord_fields (nb : BitVec 3) :
    highField (absorbWord nb) = 0 ∧ wordsField (absorbWord nb) = 0 ∧ bit11 (absorbWord nb) = 0 ∧
      passesField (absorbWord nb) = 0 ∧ bit7 (absorbWord nb) = 0 ∧ nbField (absorbWord nb) = nb ∧
      opField (absorbWord nb) = 2 := by
  revert nb; decide

/-- A word by its fields is that word. -/
theorem word_eq_iff (pattern v : Word) :
    v = pattern ↔
      highField v = highField pattern ∧ wordsField v = wordsField pattern ∧ bit11 v = bit11 pattern ∧
        passesField v = passesField pattern ∧ bit7 v = bit7 pattern ∧ nbField v = nbField pattern ∧
        opField v = opField pattern :=
  ⟨fun h => by subst h; simp, fun ⟨h1, h2, h3, h4, h5, h6, h7⟩ => word_ext h1 h2 h3 h4 h5 h6 h7⟩

/-- The row NOP by fields (R84). -/
theorem isNop_iff (v : Word) :
    isNop v = true ↔
      highField v = 0 ∧ wordsField v = 0 ∧ bit11 v = 0 ∧ passesField v = 0 ∧ bit7 v = 0 ∧ nbField v = 0 ∧
        opField v = 0 := by
  rw [isNop, rowHit_exact, word_eq_iff]
  rfl

/-- The row FINAL by fields (R84). -/
theorem isFinal_iff (v : Word) :
    isFinal v = true ↔
      highField v = 0 ∧ wordsField v = 0 ∧ bit11 v = 0 ∧ passesField v = 0 ∧ bit7 v = 0 ∧ nbField v = 0 ∧
        opField v = 3 := by
  rw [isFinal, rowHit_exact, word_eq_iff]
  rfl

/-- The row ABORT by fields (R84). -/
theorem isAbort_iff (v : Word) :
    isAbort v = true ↔
      highField v = 0 ∧ wordsField v = 0 ∧ bit11 v = 0 ∧ passesField v = 0 ∧ bit7 v = 0 ∧ nbField v = 0 ∧
        opField v = 4 := by
  rw [isAbort, rowHit_exact, word_eq_iff]
  rfl

/-- Well-formedness by fields (R83). -/
theorem wellFormedWord_iff (v : Word) :
    wellFormedWord v = true ↔
      highField v = 0 ∧ bit11 v = 0 ∧ bit7 v = 0 ∧ (opField v).toNat ≤ 4 ∧ (nbField v).toNat ≤ 4 ∧
        (opField v = 2 ∨ nbField v = 0) ∧ (opField v = 1 ∨ passesField v = 0 ∧ wordsField v = 0) := by
  simp only [wellFormedWord, Bool.and_eq_true, reservedClear_iff, decide_eq_true_eq, Bool.or_eq_true, beq_iff_eq]
  tauto

/-- A word that is a START is the START word of its own fields. -/
theorem startWord_of_isStart {v : Word} (h : isStart v = true) : startWord (passesField v) (wordsField v) = v := by
  obtain ⟨h1, h2, h3, h4, h5⟩ := (isStart_iff v).1 h
  obtain ⟨f1, f2, f3, f4, f5, f6, f7⟩ := startWord_fields (passesField v) (wordsField v)
  exact word_ext (f1.trans h1.symm) f2 (f3.trans h2.symm) f4 (f5.trans h3.symm) (f6.trans h4.symm) (f7.trans h5.symm)

/-- A word that is an ABSORB is the ABSORB word of its own field. -/
theorem absorbWord_of_isAbsorb {v : Word} (h : isAbsorb v = true) : absorbWord (nbField v) = v := by
  obtain ⟨h1, h2, h3, h4, h5, h6, -⟩ := (isAbsorb_iff v).1 h
  obtain ⟨f1, f2, f3, f4, f5, f6, f7⟩ := absorbWord_fields (nbField v)
  exact word_ext (f1.trans h1.symm) (f2.trans h2.symm) (f3.trans h3.symm) (f4.trans h4.symm) (f5.trans h5.symm) f6
    (f7.trans h6.symm)

/-! ## Descriptors (R80) -/

theorem descriptor_write (off : BitVec 7) : descriptor true off = (1 : BitVec 1) ++ off.extractLsb' 2 5 := rfl

theorem descriptor_read (off : BitVec 7) : descriptor false off = (0 : BitVec 1) ++ off.extractLsb' 2 5 := rfl

theorem descriptor_bits (b : BitVec 1) (a : BitVec 5) :
    (b ++ a).extractLsb' 0 5 = a ∧ (b ++ a).getLsbD 5 = b.getLsbD 0 := by
  revert b a; decide

theorem byteOffset_word (a : BitVec 5) : (byteOffset a).extractLsb' 2 5 = a := by
  revert a; decide

end Sys2Proof
end

