-- ==== Sys2Proof/Laws/Exec.lean ====
section
/-! SUPPORT. What `exec` and `step` can answer, and the CTRL writes of the words that have no operand. -/

namespace Sys2Proof.Machine

/-- Every instruction has a next state in every state (60_exceptions.md R248, R250: errors are states). -/
theorem exec_next (i : Instr) (s : State) : ∃ t, exec i s = .next t := by
  cases i <;> exact ⟨_, rfl⟩

/-- Everything `exec` can answer: what holds of the state itself and of each shared update, under the condition it is
made on, holds of the next state. -/
theorem exec_cases {P : State → Prop} {i : Instr} {s t : State} (h : exec i s = .next t) (same : P s)
    (data : ∀ v, P { s with data := v }) (read : ∀ a, P (busRead a s))
    (stalled : ∀ off v, s.busy = true → off = ctrlOffset ∨ off = msgOffset → P (hold off v s))
    (failed : ∀ c, c ≠ .none → s.busy = false → P (fail c s))
    (started : ∀ p w, s.busy = false → P (startEffect p w s))
    (absorbed : ∀ bs, s.busy = false → P (absorbBytes bs s))
    (finished : s.busy = false → P (finalEffect s)) (aborted : s.busy = false → P (abortEffect s)) : P t := by
  have accept : ∀ off v effect, off = ctrlOffset ∨ off = msgOffset → (s.busy = false → P (effect s)) →
      P (whenAccepted off v effect s) := by
    intro off v effect ho he
    unfold whenAccepted
    split
    · next hb => exact stalled off v hb ho
    · next hb => exact he (by simpa using hb)
  have absorb : ∀ nb, s.busy = false → P (absorbEffect nb s) := by
    intro nb hb
    unfold absorbEffect
    split
    · exact absorbed _ hb
    · exact failed _ (by simp) hb
  cases i <;> cases h
  · exact accept _ _ _ (.inl rfl) fun _ => same
  · exact accept _ _ _ (.inl rfl) (started _ _)
  · exact accept _ _ _ (.inl rfl) (absorb _)
  · exact accept _ _ _ (.inl rfl) finished
  · exact accept _ _ _ (.inl rfl) aborted
  · refine accept _ _ _ (.inl rfl) fun hb => ?_
    unfold ctrlEffect
    split_ifs
    · exact failed _ (by simp) hb
    · exact same
    · exact started _ _ hb
    · exact absorb _ hb
    · exact finished hb
    · exact aborted hb
  · exact data _
  · exact accept _ _ _ (.inr rfl) (absorbed _)
  · exact same
  · exact read _

/-- START writes nothing outside the engine. -/
@[simp] theorem startEffect_outside (p : BitVec 3) (w : BitVec 4) (s : State) :
    (startEffect p w s).rst = s.rst ∧ (startEffect p w s).env = s.env ∧ (startEffect p w s).held = s.held ∧
      (startEffect p w s).reads = s.reads := by
  unfold startEffect
  split <;> exact ⟨rfl, rfl, rfl, rfl⟩

/-- Absorbing bytes writes nothing outside the engine. -/
@[simp] theorem absorbBytes_outside (bs : List Byte) (s : State) :
    (absorbBytes bs s).rst = s.rst ∧ (absorbBytes bs s).env = s.env ∧ (absorbBytes bs s).held = s.held ∧
      (absorbBytes bs s).reads = s.reads := by
  unfold absorbBytes
  split_ifs <;> simp

/-- FINAL writes nothing outside the engine. -/
@[simp] theorem finalEffect_outside (s : State) :
    (finalEffect s).rst = s.rst ∧ (finalEffect s).env = s.env ∧ (finalEffect s).held = s.held ∧
      (finalEffect s).reads = s.reads := by
  unfold finalEffect
  split_ifs <;> simp [padAndTail, startWork]

/-- No access changes `rst_n` or what the environment will do: both are outside the engine (00_scope.md R3). -/
theorem exec_outside {i : Instr} {s t : State} (h : exec i s = .next t) : t.rst = s.rst ∧ t.env = s.env := by
  refine exec_cases (P := fun u => u.rst = s.rst ∧ u.env = s.env) h ⟨rfl, rfl⟩ (fun _ => ⟨rfl, rfl⟩) (fun a => ?_)
    (fun _ _ _ _ => ⟨rfl, rfl⟩) (fun _ _ _ => ⟨rfl, rfl⟩) (fun p w _ => ?_) (fun bs _ => ?_) (fun _ => ?_) (fun _ => ⟨rfl, rfl⟩)
  · unfold busRead
    split <;> exact ⟨rfl, rfl⟩
  · simp
  · simp
  · simp

/-- Only a stall holds a write (20_memory.md R58). -/
theorem exec_held {i : Instr} {s t : State} (h : exec i s = .next t) (hb : s.busy = false) : t.held = s.held := by
  refine exec_cases (P := fun u => u.held = s.held) h rfl (fun _ => rfl) (fun a => ?_) (fun _ _ hs _ => ?_)
    (fun _ _ _ => rfl) (fun p w _ => ?_) (fun bs _ => ?_) (fun _ => ?_) (fun _ => rfl)
  · unfold busRead
    split <;> rfl
  · simp [hb] at hs
  · simp
  · simp
  · simp

/-- What the host has read stays read: an access returns at most one more value (40_commands.md R111). -/
theorem exec_reads {i : Instr} {s t : State} (h : exec i s = .next t) : ∃ vs, t.reads = s.reads ++ vs := by
  refine exec_cases (P := fun u => ∃ vs, u.reads = s.reads ++ vs) h ⟨[], by simp⟩ (fun _ => ⟨[], by simp⟩)
    (fun a => ?_) (fun _ _ _ _ => ⟨[], by simp⟩) (fun _ _ _ => ⟨[], by simp⟩) (fun p w _ => ⟨[], by simp⟩)
    (fun bs _ => ⟨[], by simp⟩) (fun _ => ⟨[], by simp⟩) (fun _ => ⟨[], by simp [abortEffect, clearSession]⟩)
  unfold busRead
  split <;> exact ⟨[_], rfl⟩

/-- While the engine runs and no change of `rst_n` comes next, a step is `advanceRunning`. -/
theorem step_running {s : State} (h : s.rst = .released) (hl : s.env.head? ≠ some .rstLow)
    (hh : s.env.head? ≠ some .rstHigh) : step s = advanceRunning s := by
  unfold step advance
  split
  · next he => simp [he] at hl
  · next he => simp [he] at hh
  · simp [h]

/-- The dispatch of the word of NOP (40_commands.md R100). -/
theorem ctrlEffect_nop (s : State) : ctrlEffect 0x00000000 s = nopEffect s := by
  rw [ctrlEffect, if_neg (by decide), if_pos (by decide)]

/-- The dispatch of the word of FINAL (R100). -/
theorem ctrlEffect_final (s : State) : ctrlEffect 0x00000003 s = finalEffect s := by
  rw [ctrlEffect, if_neg (by decide), if_neg (by decide), if_neg (by decide), if_neg (by decide),
    if_pos (by decide)]

/-- The dispatch of the word of ABORT (R100). -/
theorem ctrlEffect_abort (s : State) : ctrlEffect 0x00000004 s = abortEffect s := by
  rw [ctrlEffect, if_neg (by decide), if_neg (by decide), if_neg (by decide), if_neg (by decide),
    if_neg (by decide)]

/-- The dispatch of a START word (R100). -/
theorem ctrlEffect_start {v : Word} (h : isStart v = true) (s : State) :
    ctrlEffect v s = startEffect (passesField v) (wordsField v) s := by
  obtain ⟨h1, h2, h3, h4, h5⟩ := (isStart_iff v).1 h
  have hw : wellFormedWord v = true := by rw [wellFormedWord_iff]; simp [h1, h2, h3, h4, h5]
  simp [ctrlEffect, hw, h5]

/-- The dispatch of an ABSORB word (R100). -/
theorem ctrlEffect_absorb {v : Word} (h : isAbsorb v = true) (s : State) :
    ctrlEffect v s = absorbEffect (nbField v) s := by
  obtain ⟨h1, h2, h3, h4, h5, h6, h7⟩ := (isAbsorb_iff v).1 h
  have hw : wellFormedWord v = true := by rw [wellFormedWord_iff]; simp [h1, h2, h3, h4, h5, h6, h7]
  simp [ctrlEffect, hw, h6]

end Sys2Proof.Machine
end

