-- ==== Sys2Proof/Laws/PerInstr.lean ====
section
/-! SUPPORT. Statements made once per constructor of Instr. -/

namespace Sys2Proof.Laws.TableRow

/-- The row of spec/opcode_table.json an instruction has: its number of bits, its mask, its match. -/
def row : Instr → Nat × Nat × Nat
  | .nop => (32, 0xFFFFFFFF, 0x00000000)
  | .start _ _ => (32, 0xFFFF08FF, 0x00000001)
  | .absorb _ => (32, 0xFFFFFF8F, 0x00000002)
  | .final => (32, 0xFFFFFFFF, 0x00000003)
  | .abort => (32, 0xFFFFFFFF, 0x00000004)
  | .wrCtrl _ => (6, 0x3F, 0x20)
  | .wrData _ => (6, 0x3F, 0x23)
  | .wrMsg _ => (6, 0x3F, 0x24)
  | .wrIgnored _ _ => (6, 0x20, 0x20)
  | .rd _ => (6, 0x20, 0x00)

/-- The bits of a well-formed instruction's encoding match its row of the opcode table, and no encoding of it matches a
row that the table puts before it (the condition of WR_IGNORED). -/
def Statement (i : Instr) : Prop :=
  wellFormed i = true →
    let bits := (tableWordOf (encode i)).2 % 2 ^ (row i).1
    bits &&& (row i).2.1 = (row i).2.2 ∧
      ∀ a v, i = .wrIgnored a v → bits ≠ 0x20 ∧ bits ≠ 0x23 ∧ bits ≠ 0x24

/-- The descriptor of a write, without the value that follows it. -/
theorem write_bits (off : BitVec 7) (v : Word) :
    (tableWordOf (.write off v)).2 % 2 ^ 6 = (descriptor true off).toNat := by
  have h : (descriptor true off).toNat < 64 := (descriptor true off).isLt
  simp only [tableWordOf]
  omega

theorem nop : Statement .nop := by
  intro _
  exact ⟨by decide, fun _ _ h => by cases h⟩

theorem start (p : BitVec 3) (w : BitVec 4) : Statement (.start p w) := by
  intro _
  exact ⟨by revert p w; decide, fun _ _ h => by cases h⟩

theorem absorb (nb : BitVec 3) : Statement (.absorb nb) := by
  intro _
  exact ⟨by revert nb; decide, fun _ _ h => by cases h⟩

theorem final : Statement .final := by
  intro _
  exact ⟨by decide, fun _ _ h => by cases h⟩

theorem abort : Statement .abort := by
  intro _
  exact ⟨by decide, fun _ _ h => by cases h⟩

theorem wrCtrl (v : Word) : Statement (.wrCtrl v) := by
  intro _
  exact ⟨by simp only [row, encode, write_bits]; decide, fun _ _ h => by cases h⟩

theorem wrData (v : Word) : Statement (.wrData v) := by
  intro _
  exact ⟨by simp only [row, encode, write_bits]; decide, fun _ _ h => by cases h⟩

theorem wrMsg (v : Word) : Statement (.wrMsg v) := by
  intro _
  exact ⟨by simp only [row, encode, write_bits]; decide, fun _ _ h => by cases h⟩

theorem wrIgnored (a : BitVec 5) (v : Word) : Statement (.wrIgnored a v) := by
  intro h
  simp only [wellFormed] at h
  refine ⟨by simp only [row, encode, write_bits]; revert a; decide, fun _ _ e => ?_⟩
  clear e
  simp only [row, encode, write_bits]
  revert a
  decide

theorem rd (a : BitVec 5) : Statement (.rd a) := by
  intro _
  exact ⟨by revert a; decide, fun _ _ h => by cases h⟩

end Sys2Proof.Laws.TableRow
end

