-- ==== Sys2Proof/Tests/Slice0.lean ====
section
/-! SUPPORT. The model's own tests, and for every obligation with premises a concrete case that meets them. Expected
values are the spec's: the rule's own example or a vector of 95_test_vectors.md, named in each comment. -/

namespace Sys2Proof.Tests

open Sys2Proof Sys2Proof.Machine Sys2Proof.Certificates

/-! ## States -/

/-- The next state of an outcome, if it is one. -/
def nextOf : Host.Outcome State Fault Refusal → Option State
  | .next t => some t
  | .fault _ => none
  | .refused _ => none

/-- What a view of the next state shows. -/
def shown {α : Type} (o : Host.Outcome State Fault Refusal) (view : State → α) : Option α := (nextOf o).map view

/-- After reset and `START p=3, w=4` (40_commands.md R105). -/
def active : State := { State.reset with phase := .active, fp := iv, cfgPasses := 3, cfgWords := 4 }

/-- ACTIVE with a count of `n` bytes and DATA = "HAVA". -/
def activeAt (n : Nat) : State := { active with count := BitVec.ofNat 64 (8 * n), data := 0x41564148 }

/-- A block-completing access or a FINAL has left work pending. -/
def working1 : State := { active with busy := true, work := .running }

/-- DONE with a digest word. -/
def done : State :=
  { State.reset with phase := .done, cfgPasses := 3, cfgWords := 4, digest := #v[0x91398FC6, 1, 2, 3, 0, 0, 0, 0] }

/-- FAILED with ERR = SEQ. -/
def failed : State := { State.reset with phase := .failed, err := .seq }

/-! ## Ill-formed terms are refused (30_encoding.md R80, R83 to R85) -/

theorem test_illformed_absorb : wellFormed (.absorb 4) = true ∧ wellFormed (.absorb 5) = false := by decide

theorem test_illformed_ignored_ctrl : wellFormed (.wrIgnored 1 0) = true ∧ wellFormed (.wrIgnored 0 0) = false := by
  decide

theorem test_illformed_ignored_data : wellFormed (.wrIgnored 3 0) = false := by decide

theorem test_illformed_ignored_msg : wellFormed (.wrIgnored 4 0) = false := by decide

/-- Each reason of R85, by words of the table of 95_test_vectors.md 2.7. -/
theorem test_reject_reasons :
    decodeCmd 0x00004381 = .error .reservedBits ∧ decodeCmd 0x00014301 = .error .reservedBits ∧
    decodeCmd 0x00004B01 = .error .reservedBits ∧ decodeCmd 0x00000005 = .error .reservedOp ∧
    decodeCmd 0x00000052 = .error .tooManyBytes ∧ decodeCmd 0x00000013 = .error .bytesOutsideAbsorb ∧
    decodeCmd 0x00000104 = .error .configOutsideStart := by decide

/-! ## Decoding, words written field by field from the diagrams of R80 and R81 -/

/-- Reserved 16, WORDS 4, 0, PASSES 3, 0, NB 0, OP 1. -/
theorem test_decode_start :
    decodeCmd (0#16 ++ 0b0100#4 ++ 0b0#1 ++ 0b011#3 ++ 0b0#1 ++ 0b000#3 ++ 0b0001#4) = .ok (.start 3 4) := by decide

/-- WORDS 8, PASSES 5. -/
theorem test_decode_start_wide :
    decodeCmd (0#16 ++ 0b1000#4 ++ 0b0#1 ++ 0b101#3 ++ 0b0#1 ++ 0b000#3 ++ 0b0001#4) = .ok (.start 5 8) := by decide

/-- NB 3, OP 2. -/
theorem test_decode_absorb :
    decodeCmd (0#16 ++ 0b0000#4 ++ 0b0#1 ++ 0b000#3 ++ 0b0#1 ++ 0b011#3 ++ 0b0010#4) = .ok (.absorb 3) := by decide

/-- OP 0, OP 3, OP 4 and all else 0. -/
theorem test_decode_plain :
    decodeCmd (0#28 ++ 0b0000#4) = .ok .nop ∧ decodeCmd (0#28 ++ 0b0011#4) = .ok .final ∧
    decodeCmd (0#28 ++ 0b0100#4) = .ok .abort := by decide

/-- W 1 with A 0, 3, 4 and 31, and W 0 with A 8. -/
theorem test_decode_bus :
    decodeBus (0b1#1 ++ 0b00000#5) 7 = .wrCtrl 7 ∧ decodeBus (0b1#1 ++ 0b00011#5) 7 = .wrData 7 ∧
    decodeBus (0b1#1 ++ 0b00100#5) 7 = .wrMsg 7 ∧ decodeBus (0b1#1 ++ 0b11111#5) 7 = .wrIgnored 31 7 ∧
    decodeBus (0b0#1 ++ 0b01000#5) 7 = .rd 8 := by decide

/-- The opcode table's numbering: a command word, a descriptor byte, a descriptor byte with a value after it. -/
theorem test_table_words :
    decodeTableWord 32 0x00004301 = some (.start 3 4) ∧ decodeTableWord 8 0x23 = some (.wrData 0) ∧
    decodeTableWord 8 0x08 = some (.rd 8) ∧ decodeTableWord 40 0x0000004C23 = some (.wrData 0x4C) ∧
    decodeTableWord 32 0x00000005 = none ∧ decodeTableWord 8 0x40 = none := by decide

/-! ## The datapath -/

/-- V-F3. -/
theorem test_round_functions :
    let at3 := fun f : RoundFn => f 0x01234567 0x89ABCDEF 0xFEDCBA98 0x76543210 0x0F0F0F0F 0x33333333 0x55555555
    at3 f1 = 0x7F5F7B5B ∧ at3 f2 = 0xE2C0E6C4 ∧ at3 f3 = 0x381A785A ∧ at3 f4 = 0xC6C6C2C2 ∧
    at3 f5 = 0x6F4F2F0F := by decide

/-- V-R1 to V-R4. -/
theorem test_rotr :
    rotr 0x00000001 7 = 0x02000000 ∧ rotr 0x80000000 11 = 0x00100000 ∧ rotr 0x12345678 7 = 0xF02468AC ∧
    rotr 0x12345678 11 = 0xCF02468A := by decide

/-- The block of the empty message (V-C1). -/
def emptyBlock (j : Nat) : Word := if j = 0 then 0x00000001 else if j = 29 then 0x20190000 else 0

/-- V-S1 and V-S2: the first two steps write T7 and then T6. -/
theorem test_first_steps :
    ((roundTables 3).head?.map fun r =>
      let t := roundStep r emptyBlock (roundStep r emptyBlock iv 0) 1
      (wordAt t 7, wordAt t 6)) = some (0x4A8B047E, 0xFF60AC85) := by decide

/-- V-P1, V-P4, V-P5, V-P7: padding lengths. -/
theorem test_padding_lengths :
    padLength 0 = 118 ∧ padLength 117 = 1 ∧ padLength 118 = 128 ∧ padLength 127 = 119 := by decide

/-- V-P8: the tail of "HAVAL" for p = 3, w = 4. -/
theorem test_tail : tailBytes 3 4 40 = [0x19, 0x20, 0x28, 0, 0, 0, 0, 0, 0, 0] := by decide

/-- Input A of 95_test_vectors.md 2.5. -/
def inputA : Words8 :=
  #v[0x03020100, 0x07060504, 0x0B0A0908, 0x0F0E0D0C, 0x13121110, 0x17161514, 0x1B1A1918, 0x1F1E1D1C]

/-- V-T1 and V-T2. -/
theorem test_tailor_128_160 :
    (tailor inputA 4).toList.take 4 = [0x1F1D1711, 0x241E1C16, 0x29231D1B, 0x2E28221C] ∧
    (tailor inputA 5).toList.take 5 = [0x03058462, 0x070C910F, 0x0B10221C, 0x0F127560, 0x131402F1] := by decide

/-- V-T3 and V-T4. -/
theorem test_tailor_192_224 :
    (tailor inputA 6).toList.take 6 =
      [0x03020806, 0x0706061C, 0x0B0A09F0, 0x0F0E1492, 0x1312142A, 0x1716160C] ∧
    (tailor inputA 7).toList.take 7 =
      [0x03020103, 0x07060520, 0x0B0A090F, 0x0F0E0D1C, 0x1312111E, 0x17161525, 0x1B1A1924] := by decide

/-! ## The instructions, one step each -/

/-- R104, example: NOP in ACTIVE with COUNT = 0x28 leaves STATUS and COUNT_LO. -/
theorem test_nop :
    shown (exec .nop (activeAt 5)) (fun t => (readRegister 1 t, readRegister 5 t)) = some (0x00000002, 0x00000028) := by
  decide

/-- R105, example: `START p=3, w=4` from reset. -/
theorem test_start :
    shown (exec (.start 3 4) State.reset) (fun t => (readRegister 1 t, readRegister 2 t, readRegister 5 t)) =
      some (0x00000002, 0x00004300, 0) := by decide

/-- R105, example: `START p=6, w=4`; in FAILED with ERR = SEQ too (95_test_vectors.md 2.7). -/
theorem test_start_rejected :
    shown (exec (.start 6 4) State.reset) (fun t => (readRegister 1 t, readRegister 2 t)) = some (0x00000016, 0) ∧
    shown (exec (.start 6 4) failed) (readRegister 1) = some 0x00000016 := by decide

/-- R106, example: ABSORB nb=1 of DATA = 0x0000004C at COUNT = 0x20 stores "L" at BLK[4]. -/
theorem test_absorb :
    shown (exec (.absorb 1) { activeAt 4 with data := 0x0000004C })
      (fun t => (readRegister 5 t, Memory.read t.blk 4, pend t.count)) = some (0x00000028, 0x4C, 5) := by decide

/-- V-E1: at COUNT = 2^64 − 8, ABSORB nb=1 raises LEN and ABSORB nb=0 does not. -/
theorem test_absorb_length :
    shown (exec (.absorb 1) (activeAt (2 ^ 61 - 1))) (readRegister 1) = some 0x00000026 ∧
    shown (exec (.absorb 0) (activeAt (2 ^ 61 - 1))) (readRegister 1) = some 0x00000002 := by decide

/-- S1, P1: FINAL of the empty message for p = 3, w = 4. STATUS and COUNT after the ENGINE's step. -/
theorem test_final_empty :
    shown (exec .final active) (fun t => t.digest.toList) =
      some [0x91398FC6, 0x3D1F903F, 0x07C744DF, 0x707D7A35, 0, 0, 0, 0] := by decide +kernel

/-- 95_test_vectors.md 2.7: FINAL from IDLE and DONE raises SEQ. -/
theorem test_final_misused :
    shown (exec .final State.reset) (readRegister 1) = some 0x00000036 ∧
    shown (exec .final done) (fun t => (readRegister 1 t, readRegister 8 t)) = some (0x00000036, 0) := by decide

/-- V-X3: ABORT in ACTIVE keeps DATA. -/
theorem test_abort :
    shown (exec .abort (activeAt 4)) (fun t => (readRegister 1 t, readRegister 2 t, readRegister 5 t, readRegister 3 t)) =
      some (0, 0, 0, 0x41564148) := by decide

/-- R246, example: 0x00000052 in IDLE is ILLEGAL, not SEQ; in FAILED the first code stays (2.7). -/
theorem test_wrCtrl_illegal :
    shown (exec (.wrCtrl 0x00000052) State.reset) (readRegister 1) = some 0x00000046 ∧
    shown (exec (.wrCtrl 0x00000052) failed) (readRegister 1) = some 0x00000036 := by decide

/-- 2.7: the CTRL write 0x00000042 in ACTIVE at COUNT = 0x20. -/
theorem test_wrCtrl_absorb :
    shown (exec (.wrCtrl 0x00000042) (activeAt 4)) (fun t => (readRegister 1 t, readRegister 5 t)) =
      some (0x00000002, 0x00000040) := by decide

/-- R109, example; it does not stall while BUSY = 1. -/
theorem test_wrData : shown (exec (.wrData 0x41564148) working1) (readRegister 3) = some 0x41564148 := by decide

/-- V-A2: the bytes of an MSG write, least significant first, and DATA unchanged. -/
theorem test_wrMsg :
    shown (exec (.wrMsg 0x64636261) (activeAt 4))
      (fun t => (readRegister 5 t, [4, 5, 6, 7].map (Memory.read t.blk), readRegister 3 t)) =
      some (0x00000040, [0x61, 0x62, 0x63, 0x64], 0x41564148) := by decide

/-- R58: an MSG write while BUSY = 1 is held. -/
theorem test_wrMsg_held :
    shown (exec (.wrMsg 5) working1) (fun t => (t.held, t.count)) = some (some ⟨4, 5⟩, 0) := by decide

/-- V-A3, V-A4: writes to STATUS and COUNT_LO have no effect. -/
theorem test_wrIgnored :
    nextOf (exec (.wrIgnored 1 0xFFFFFFFF) (activeAt 4)) = some (activeAt 4) ∧
    nextOf (exec (.wrIgnored 5 5) (activeAt 4)) = some (activeAt 4) := by decide

/-- R111, example, and V-A6: DIGEST0 reads its word in DONE and 0 in ACTIVE. -/
theorem test_rd :
    shown (exec (.rd 8) done) (fun t => t.reads) = some [0x91398FC6] ∧
    shown (exec (.rd 8) { done with phase := .active }) (fun t => t.reads) = some [0] := by decide

/-- V-X4: STATUS during the BUSY interval of a FINAL. -/
theorem test_rd_busy :
    shown (exec (.rd 1) { done with busy := true, work := .running }) (fun t => t.reads) = some [0x00000003] := by decide

/-! ## Steps -/

/-- V-A1: a write at offset 0x0E is a DATA write, placed and run as the next instruction. -/
theorem test_step_fetch :
    shown (step (State.withFetchWord State.reset 40 0x1234567823)) (readRegister 3) = some 0x12345678 ∧
    shown (step (presentAccess (.write 0x0E 0x12345678) State.reset)) (readRegister 3) = some 0x12345678 := by decide

/-- V-X8: reset while work is pending. -/
theorem test_step_reset :
    shown (step { working1 with env := [.rstLow] }) (fun t => (t.phase, t.busy, t.work)) =
      some (.idle, false, .none) := by decide

/-! ## The premises of the obligations can be met, clause by clause, at the ends of their ranges -/

theorem test_witness_DecodeEncodeAgree :
    wellFormed (.absorb 4) = true ∧ wellFormed (.wrIgnored 31 0xFFFFFFFF) = true ∧ wellFormed (.start 7 15) = true := by
  decide

/-- A word for each row, and 0x00000052, which meets the mask of ABSORB but not its condition. -/
theorem test_witness_OpcodeMapAsTabled :
    (0x00000000 : Word) &&& 0xFFFFFFFF = 0x00000000 ∧ (0x0000F701 : Word) &&& 0xFFFF08FF = 0x00000001 ∧
      (0x00000042 : Word) &&& 0xFFFFFF8F = 0x00000002 ∧ ((0x00000042 : Word).extractLsb' 4 3).toNat ≤ 4 ∧
      (0x00000003 : Word) &&& 0xFFFFFFFF = 0x00000003 ∧ (0x00000004 : Word) &&& 0xFFFFFFFF = 0x00000004 ∧
      (0x00000052 : Word) &&& 0xFFFFFFFF ≠ 0x00000000 ∧ (0x00000052 : Word) &&& 0xFFFF08FF ≠ 0x00000001 ∧
      ¬((0x00000052 : Word) &&& 0xFFFFFF8F = 0x00000002 ∧ ((0x00000052 : Word).extractLsb' 4 3).toNat ≤ 4) ∧
      (0x00000052 : Word) &&& 0xFFFFFFFF ≠ 0x00000003 ∧ (0x00000052 : Word) &&& 0xFFFFFFFF ≠ 0x00000004 := by decide

theorem test_witness_DescriptorDecodesAsTabled :
    (0x0E : BitVec 7).extractLsb' 2 5 = 3 ∧ (0x7F : BitVec 7).extractLsb' 2 5 = 31 := by decide

theorem test_witness_StepRunsDecodedAccess :
    let s : State := { State.reset with env := [.access (.cmd 0x00004301)] }
    s.rst = .released ∧ s.held = none ∧ s.env = .access (.cmd 0x00004301) :: [] ∧
      decodeAccess (.cmd 0x00004301) = .ok (.start 3 4) ∧ decodeAccess (.read 0x7F) = .ok (.rd 31) ∧
      decodeAccess (.write 0x13 9) = .ok (.wrMsg 9) := by decide

theorem test_witness_StepRunsIllegalWordAsCtrlWrite :
    let s : State := { State.reset with env := [.access (.cmd 0x00000052)] }
    s.rst = .released ∧ s.held = none ∧ s.env = .access (.cmd 0x00000052) :: [] ∧
      wellFormedWord 0x00000052 = false := by decide

/-- The MSG clause, at an offset whose low bits are set; then the command clause. -/
theorem test_witness_StalledWritePerformedAfterEngine :
    let s : State := { working1 with env := [.access (.write 0x13 9), .engine] }
    let h : HeldWrite := ⟨4, 9⟩
    s.rst = .released ∧ s.held = none ∧ s.busy = true ∧ s.work = .running ∧
      s.env = .access (.write 0x13 h.value) :: [.engine] ∧ h.offset = (0x13 : BitVec 7).extractLsb' 2 5 ∧ h.offset = 4 ∧
      ([Event.engine].head? ≠ some .rstLow) ∧ ([Event.engine].head? ≠ some .rstHigh) ∧
      Access.cmd 0x00000003 = .cmd (HeldWrite.mk 0 3).value ∧ (HeldWrite.mk 0 3).offset = 0 := by decide

theorem test_witness_EngineStepEndsTheWork :
    working1.rst = .released ∧ working1.held = none ∧ working1.work = .running ∧ working1.env = [] ∧
      ({ working1 with env := [.engine] } : State).env = .engine :: [] := by decide

theorem test_witness_IdleEngineHoldsItsState :
    done.rst = .released ∧ done.held = none ∧ done.work = .none ∧ done.env = [] := by decide

theorem test_witness_NoStopAfterReset :
    active.rst ≠ .unapplied ∧ ({ active with rst := .asserted } : State).rst ≠ .unapplied := by decide

theorem test_witness_ResetEdgeFromEveryState :
    ({ working1 with env := [.rstLow], held := some ⟨0, 3⟩ } : State).env = .rstLow :: [] := by decide

theorem test_witness_AccessDuringReset :
    let s : State := { State.reset with rst := .asserted, env := [.access (.read 4)] }
    s.rst = .asserted ∧ s.env = .access (.read 4) :: [] ∧ isRead (.read 4) = true ∧ isRead (.write 0 3) = false := by
  decide

theorem test_witness_AccessBeforeFirstResetIsStuck :
    let s : State := { State.reset with rst := .unapplied, env := [.access (.read 4)] }
    s.rst = .unapplied ∧ s.env = .access (.read 4) :: [] := by decide

theorem test_witness_NopDoesNothing : active.busy = false ∧ working1.busy = true := by decide

/-- Supported pairs at both ends; pairs just outside on each side. -/
theorem test_witness_StartOpensOrRejects :
    done.busy = false ∧
    ((3 : BitVec 3).toNat ∈ [3, 4, 5] ∧ (4 : BitVec 4).toNat ∈ [4, 5, 6, 7, 8]) ∧
    ((5 : BitVec 3).toNat ∈ [3, 4, 5] ∧ (8 : BitVec 4).toNat ∈ [4, 5, 6, 7, 8]) ∧
    ¬((2 : BitVec 3).toNat ∈ [3, 4, 5] ∧ (4 : BitVec 4).toNat ∈ [4, 5, 6, 7, 8]) ∧
    ¬((3 : BitVec 3).toNat ∈ [3, 4, 5] ∧ (9 : BitVec 4).toNat ∈ [4, 5, 6, 7, 8]) := by decide

/-- PEND + nb at 127 and at 128, and the largest count that fits (V-E1). -/
theorem test_witness_AbsorbMovesDataBytes :
    let s := activeAt (2 ^ 61 - 5)
    s.busy = false ∧ s.phase = .active ∧ (4 : BitVec 3).toNat ≤ 4 ∧
      s.count.toNat + 8 * (4 : BitVec 3).toNat ≤ 2 ^ 64 - 1 ∧ Memory.wf s.blk ∧ supportedPasses s.cfgPasses = true ∧
      pend s.count + (lowBytes 4 s.data).length < 128 ∧
      128 ≤ pend (activeAt 124).count + (lowBytes 4 s.data).length ∧ (0 : BitVec 3).toNat = 0 := by decide

theorem test_witness_MsgWriteMovesFourBytes :
    let s := activeAt (2 ^ 61 - 5)
    s.busy = false ∧ s.phase = .active ∧ s.count.toNat + 32 ≤ 2 ^ 64 - 1 ∧ Memory.wf s.blk ∧
      supportedPasses s.cfgPasses = true ∧ pend s.count + 4 < 128 ∧ 128 ≤ pend (activeAt 124).count + 4 := by decide

theorem test_witness_MsgWriteIsDataThenAbsorb :
    failed.busy = false ∧ active.busy = false ∧ working1.busy = true := by decide

/-- One byte too many at 2^64 − 8; four bytes that just fit at 2^64 − 40, and four that do not at 2^64 − 32. -/
theorem test_witness_LengthOverflowRaisesLen :
    let s := activeAt (2 ^ 61 - 1)
    let s' := activeAt (2 ^ 61 - 5)
    s.busy = false ∧ s.phase = .active ∧ (1 : BitVec 3).toNat ≤ 4 ∧
      s.count.toNat + 8 * (1 : BitVec 3).toNat > 2 ^ 64 - 1 ∧
      (activeAt (2 ^ 61 - 4)).count.toNat + 8 * 4 > 2 ^ 64 - 1 ∧
      s'.busy = false ∧ s'.phase = .active ∧ s'.err = .none ∧ s'.count.toNat + 8 * (4 : BitVec 3).toNat ≤ 2 ^ 64 - 1 ∧
      (nextOf (exec (.absorb 4) s')).isSome = true ∧ (nextOf (exec (.wrMsg 7) s')).isSome = true := by decide

theorem test_witness_MisuseRaisesSeq :
    done.busy = false ∧ done.phase ≠ .active ∧ failed.phase ≠ .active ∧ (0 : BitVec 3).toNat ≤ 4 ∧
      (4 : BitVec 3).toNat ≤ 4 := by decide

theorem test_witness_IllegalWordRaisesIllegal :
    active.busy = false ∧ wellFormedWord 0x80000000 = false ∧ wellFormedWord 0x00000005 = false ∧
      4 < (5 : BitVec 3).toNat ∧ 4 < (7 : BitVec 3).toNat := by decide

theorem test_witness_IllegalComesFirst :
    State.reset.busy = false ∧ State.reset.err = .none ∧ wellFormedWord 0x00004681 = false ∧
      (nextOf (exec (.wrCtrl 0x00004681) State.reset)).isSome = true := by decide

/-- PEND = 0 and 117. -/
theorem test_witness_FinalWithOneBlock :
    (∀ n ∈ [0, 117], pend (activeAt n).count = n ∧ pend (activeAt n).count < 118) ∧ active.busy = false ∧
      active.phase = .active ∧ Memory.wf active.blk ∧ supportedPasses active.cfgPasses = true := by decide

/-- PEND = 118 and 127. -/
theorem test_witness_FinalWithTwoBlocks :
    (∀ n ∈ [118, 127], pend (activeAt n).count = n ∧ 118 ≤ pend (activeAt n).count) ∧ active.busy = false ∧
      active.phase = .active ∧ Memory.wf active.blk ∧ supportedPasses active.cfgPasses = true := by decide

theorem test_witness_AbortClearsEverythingButData :
    failed.busy = false ∧ (activeAt 4).busy = false ∧ working1.busy = true := by decide

/-- Held, ill-formed, and one well-formed word for each OP. -/
theorem test_witness_CtrlWriteIsItsCommand :
    working1.busy = true ∧ active.busy = false ∧ wellFormedWord 0x00000052 = false ∧
      (wellFormedWord 0x00000000 = true ∧ opField 0x00000000 = 0) ∧
      (wellFormedWord 0x0000F701 = true ∧ opField 0x0000F701 = 1) ∧
      (wellFormedWord 0x00000042 = true ∧ opField 0x00000042 = 2) ∧
      (wellFormedWord 0x00000003 = true ∧ opField 0x00000003 = 3) ∧
      (wellFormedWord 0x00000004 = true ∧ opField 0x00000004 = 4) := by decide

theorem test_witness_CtrlWriteCompletes :
    active.busy = false ∧ active.phase = .active ∧ supported 3 4 = true ∧ supported 5 8 = true ∧
      (4 : BitVec 3).toNat ≤ 4 ∧ active.count.toNat + 8 * (4 : BitVec 3).toNat ≤ 2 ^ 64 - 1 ∧ Memory.wf active.blk ∧
      supportedPasses active.cfgPasses = true ∧ pend (activeAt 117).count < 118 ∧ 118 ≤ pend (activeAt 118).count := by
  decide

/-- Word offsets 1, 2, 5 and 31. -/
theorem test_witness_IgnoredWriteDoesNothing :
    ∀ off ∈ [(0x04 : BitVec 7), 0x0B, 0x14, 0x7F], off.toNat / 4 ≠ 0 ∧ off.toNat / 4 ≠ 3 ∧ off.toNat / 4 ≠ 4 := by
  decide

theorem test_witness_ReadReturnsRegister :
    done.busy = false ∧ (1 : BitVec 5).toNat = 1 ∧ (2 : BitVec 5).toNat = 2 ∧ (3 : BitVec 5).toNat = 3 ∧
      (5 : BitVec 5).toNat = 5 ∧ (6 : BitVec 5).toNat = 6 ∧ (8 ≤ (8 : BitVec 5).toNat) ∧ (15 : BitVec 5).toNat ≤ 15 ∧
      ((0 : BitVec 5).toNat = 0) ∧ (4 : BitVec 5).toNat = 4 ∧ (7 : BitVec 5).toNat = 7 ∧ 16 ≤ (16 : BitVec 5).toNat := by
  decide

theorem test_witness_ReadDuringBusy :
    working1.busy = true ∧ (∀ a ∈ [(5 : BitVec 5), 6, 8, 15], a.toNat = 5 ∨ a.toNat = 6 ∨ 8 ≤ a.toNat ∧ a.toNat ≤ 15) ∧
      ∀ a ∈ [(0 : BitVec 5), 1, 2, 3, 4, 7, 16, 31],
        ¬(a.toNat = 5 ∨ a.toNat = 6 ∨ 8 ≤ a.toNat ∧ a.toNat ≤ 15) := by decide

/-- The written register and another one, at steps 0 and 31. -/
theorem test_witness_StepWritesOneWord :
    7 < 8 ∧ 7 = 7 - 0 % 8 ∧ 0 < 8 ∧ 0 = 7 - 31 % 8 ∧ 6 ≠ 7 - 0 % 8 := by decide

theorem test_witness_ShiftRegisterFormAgrees : (∃ r, r ∈ roundTables 3) ∧ 6 < 7 ∧ 32 % 8 = 0 :=
  ⟨⟨_, List.mem_cons_self⟩, by decide⟩

theorem test_witness_SequencerRunsTheRounds :
    31 < 32 * (3 : BitVec 3).toNat ∧ 159 < 32 * (5 : BitVec 3).toNat ∧ supportedPasses 3 = true ∧ supportedPasses 4 = true ∧ supportedPasses 5 = true := by decide

theorem test_witness_UnrolledFormAgrees : 1 ∣ 32 ∧ 4 ∣ 32 ∧ 32 ∣ 32 := ⟨⟨32, rfl⟩, ⟨8, rfl⟩, ⟨1, rfl⟩⟩

/-- R151: k divides 32, so 4 and 32 are factors and 0 and 3 are none. -/
theorem test_unroll_factors : 4 ∣ 32 ∧ 32 ∣ 32 ∧ ¬ 0 ∣ 32 ∧ ¬ 3 ∣ 32 := by decide

/-- Two lists that differ only above index 127. -/
theorem test_witness_CompressReadsTheBlockAndChains :
    supportedPasses 3 = true ∧ (∀ n < 128, Memory.read [(127, 1)] n = Memory.read [(127, 1), (128, 5)] n) ∧ 7 < 8 := by
  decide +kernel

theorem test_witness_PaddingReaches118 : 0 < 128 ∧ 127 < 128 ∧ 127 < (padding 118).length := by
  simp [padding, padLength]

theorem test_witness_TailBytesAsGiven : supported 3 4 = true ∧ supported 5 8 = true ∧ 0 < 8 ∧ 7 < 8 := by decide

theorem test_witness_TailoringOfZeroHighWords :
    supportedWords 4 = true ∧ supportedWords 8 = true ∧ (8 : BitVec 4) = 8 ∧ 4 < 8 ∧ (4 : BitVec 4).toNat ≤ 4 ∧
      ∀ j < 8, (4 : BitVec 4).toNat ≤ j → wordAt #v[1, 2, 3, 4, 0, 0, 0, 0] j = 0 := by decide

theorem test_witness_TailoringUsesEachByteOnce :
    ∀ j < 4, wordAt #v[0, 0, 0, 0, 0x80000001, 5, 6, 7] j = 0 := by decide

theorem test_witness_DigestIsTheFirstWords :
    15 < 4 * (4 : BitVec 4).toNat ∧ 31 < 4 * (8 : BitVec 4).toNat ∧ 31 < 32 ∧ 7 < 8 := by decide

/-- A state in mid-session with a held write and work pending meets the invariant, and takes a step. -/
theorem test_witness_StepKeepsInvariant :
    let s : State := { working1 with count := 1024, blk := [(3, 7)], held := some ⟨0, 3⟩ }
    Inv s ∧ ∃ t, step s = .next t := by
  refine ⟨?_, _, rfl⟩
  constructor <;> simp [working1, active, State.reset, Memory.wf, Memory.inBlock, ctrlOffset, zeroWords8]
  decide

/-- ABORT leaves FAILED; a START that raises CFG changes ERR. -/
theorem test_witness_FailedLeftOnlyByStartAbortReset :
    failed.phase = .failed ∧ failed.err ≠ .none ∧
    shown (step { failed with env := [.access (.cmd 0x00000004)] }) (fun t => decide (t.phase ≠ .failed)) = some true ∧
    shown (step { failed with env := [.access (.cmd 0x00004601)] }) (fun t => decide (t.err ≠ failed.err)) = some true := by
  decide

theorem test_witness_DataChangesOnlyByItsWrite :
    shown (step { active with env := [.access (.write 0x0C 5)] }) (fun t => decide (t.data ≠ active.data)) =
      some true := by decide

theorem test_witness_OnlyCtrlAndMsgTouchTheSession :
    (∃ v, Instr.wrData 5 = .wrData v) ∧ (∃ a v, Instr.wrIgnored 1 5 = .wrIgnored a v) ∧ (∃ a, Instr.rd 8 = .rd a) :=
  ⟨⟨5, rfl⟩, ⟨1, 5, rfl⟩, ⟨8, rfl⟩⟩

theorem test_witness_PhaseTransitions :
    (∀ s ∈ [State.reset, active, done, failed], s.busy = false ∧ (s.err ≠ .none ↔ s.phase = .failed)) ∧
      supported 3 4 = true ∧ supported 0 0 = false ∧ (4 : BitVec 3).toNat ≤ 4 ∧ (0 : BitVec 3).toNat ≤ 4 := by decide

/-- Work pending, a write held, an access and a trailing reset left: the invariant holds and reset has been applied. -/
theorem test_witness_EveryRunEnds :
    let s : State :=
      { working1 with count := 1024, blk := [(3, 7)], held := some ⟨0, 3⟩, env := [.access (.read 0x04), .rstLow] }
    Inv s ∧ s.rst ≠ .unapplied := by
  refine ⟨?_, by decide⟩
  constructor <;> simp [working1, active, State.reset, Memory.wf, Memory.inBlock, ctrlOffset, zeroWords8]
  decide

/-- A DONE state with only a reset left to come meets the premises of the second clause. -/
theorem test_witness_EveryRunEnds_over :
    let s : State := { done with env := [.rstLow, .engine] }
    (∀ a, Event.access a ∉ s.env) ∧ s.held = none ∧ s.work = .none ∧ s.rst ≠ .unapplied := by
  refine ⟨fun a => ?_, by decide⟩
  simp

/-- R279: the last access made, the final state is the one before what else the environment does. -/
theorem test_run_over_before_trailing_reset :
    runToEnd 4 { done with env := [.rstLow, .rstHigh] } = some { done with env := [.rstLow, .rstHigh] } := by decide

/-- R279: "A run whose last access left WORK = RUNNING is not over until the ENGINE step has been taken", and one with
an access to come is not over. -/
theorem test_run_not_over :
    ¬ runOver working1 ∧ ¬ runOver { done with env := [.engine, .access (.read 0x04)] } ∧
      runOver (engineTurn working1) := by decide

theorem test_witness_EveryStateReachesIdle : working1.busy = true ∧ working1.work = .running := by decide

/-- The four bytes "HAVA" by one MSG write. -/
def oneWrite : List Chunk := [(0x41564148, none)]

/-- The same four bytes by ABSORBs of 3, 0 and 1. -/
def threeAbsorbs : List Chunk := [(0x41564148, some 3), (0x00000000, some 0), (0x00000041, some 1)]

theorem test_chunk_lengths :
    (oneWrite.flatMap chunkBytes).length = 4 ∧ (threeAbsorbs.flatMap chunkBytes).length = 4 := by decide

theorem test_chunks_wellFormed : chunksWellFormed oneWrite ∧ chunksWellFormed threeAbsorbs := by
  constructor <;> intro c hc nb h <;> simp only [oneWrite, threeAbsorbs, List.mem_cons, List.not_mem_nil, or_false] at hc
  · subst hc; cases h
  · rcases hc with rfl | rfl | rfl <;> cases h <;> decide

theorem test_witness_DigestIndependentOfChunking :
    active.busy = false ∧ active.work = .none ∧ active.phase = .active ∧ chunksWellFormed oneWrite ∧
      chunksWellFormed threeAbsorbs ∧ oneWrite.flatMap chunkBytes = threeAbsorbs.flatMap chunkBytes ∧
      active.count.toNat + 8 * (oneWrite.flatMap chunkBytes).length ≤ 2 ^ 64 - 1 := by
  refine ⟨rfl, rfl, rfl, test_chunks_wellFormed.1, test_chunks_wellFormed.2, by decide, ?_⟩
  rw [test_chunk_lengths.1]
  decide

theorem test_witness_SessionComputesDigest :
    failed.busy = false ∧ failed.work = .none ∧ supported 5 8 = true ∧ chunksWellFormed threeAbsorbs ∧
      8 * (threeAbsorbs.flatMap chunkBytes).length ≤ 2 ^ 64 - 1 := by
  refine ⟨rfl, rfl, rfl, test_chunks_wellFormed.2, ?_⟩
  rw [test_chunk_lengths.2]
  decide

end Sys2Proof.Tests
end

section
/-! The state after reset (10_state.md R40): what the stored words and bytes read as, and O13. -/

namespace Sys2Proof.Machine

@[simp] theorem reset_fp : State.reset.fp = zeroWords8 := rfl
@[simp] theorem reset_digest : State.reset.digest = zeroWords8 := rfl
@[simp] theorem reset_blk : State.reset.blk = [] := rfl

theorem wordAt_reset_fp (j : Nat) : wordAt State.reset.fp j = 0 := by
  rw [reset_fp, wordAt_zeroWords8]

theorem wordAt_reset_digest (j : Nat) : wordAt State.reset.digest j = 0 := by
  rw [reset_digest, wordAt_zeroWords8]

/-- BLK is stored as the list of its nonzero bytes, and reset leaves none (10_state.md R22). -/
theorem read_reset_blk (n : Nat) : Memory.read State.reset.blk n = 0 := by
  rw [reset_blk, Memory.read_nil]

/-- Settles O13: the two eight-word arrays and BLK read as 0 at every index, and every other piece of state is the
value of R40 as `State.reset` gives it. -/
theorem resetStateValues : Obligations.ResetStateValues := by
  unfold Obligations.ResetStateValues
  have hfp : ∀ j, j < 8 → wordAt State.reset.fp j = 0 := fun j _ => wordAt_reset_fp j
  have hdigest : ∀ j, j < 8 → wordAt State.reset.digest j = 0 := fun j _ => wordAt_reset_digest j
  exact ⟨hfp, rfl, read_reset_blk, rfl, rfl, rfl, rfl, rfl, hdigest, rfl, rfl⟩

end Sys2Proof.Machine
end

section
/-! Decoding (30_encoding.md R80, R84): the opcode map row by row, the bus descriptor by its parts, and O3 and O5. -/

namespace Sys2Proof.Machine

/-! ## The opcode map -/

/-- The test of a row, as R84 writes it. -/
theorem rowHit_eq_true_iff (mask pattern v : Word) : rowHit mask pattern v = true ↔ v &&& mask = pattern :=
  beq_iff_eq

/-- A row whose mask covers OP fixes OP. Every row of R84 does, each at another value, so no word meets two rows. -/
theorem opField_of_rowHit {mask pattern v : Word} (h : rowHit mask pattern v = true) (hm : opField mask = 0xF) :
    opField v = opField pattern := by
  obtain ⟨-, -, -, -, -, -, hop⟩ := (rowHit_iff mask pattern v).1 h
  rwa [hm, and_ones4] at hop

theorem opField_of_isNop {v : Word} (h : isNop v = true) : opField v = 0 := opField_of_rowHit h (by decide)

theorem opField_of_isStart {v : Word} (h : isStart v = true) : opField v = 1 := opField_of_rowHit h (by decide)

theorem isAbsorb_eq_true_iff (v : Word) :
    isAbsorb v = true ↔ v &&& 0xFFFFFF8F = 0x00000002 ∧ (nbField v).toNat ≤ 4 := by
  rw [isAbsorb, Bool.and_eq_true, rowHit_eq_true_iff, decide_eq_true_iff]

theorem opField_of_isAbsorb {v : Word} (h : isAbsorb v = true) : opField v = 2 := by
  obtain ⟨hrow, -⟩ := (isAbsorb_eq_true_iff v).1 h
  exact opField_of_rowHit ((rowHit_eq_true_iff _ _ v).2 hrow) (by decide)

theorem not_isNop_of_isStart {v : Word} (h : isStart v = true) : ¬ isNop v = true := fun hn =>
  absurd ((opField_of_isNop hn).symm.trans (opField_of_isStart h)) (by decide)

theorem not_isNop_of_isAbsorb {v : Word} (h : isAbsorb v = true) : ¬ isNop v = true := fun hn =>
  absurd ((opField_of_isNop hn).symm.trans (opField_of_isAbsorb h)) (by decide)

theorem not_isStart_of_isAbsorb {v : Word} (h : isAbsorb v = true) : ¬ isStart v = true := fun hs =>
  absurd ((opField_of_isStart hs).symm.trans (opField_of_isAbsorb h)) (by decide)

theorem decodeCmd_of_isNop {v : Word} (h : isNop v = true) : decodeCmd v = .ok .nop := by
  rw [decodeCmd, if_pos h]

theorem decodeCmd_of_isStart {v : Word} (h : isStart v = true) :
    decodeCmd v = .ok (.start (passesField v) (wordsField v)) := by
  rw [decodeCmd, if_neg (not_isNop_of_isStart h), if_pos h]

theorem decodeCmd_of_isAbsorb {v : Word} (h : isAbsorb v = true) : decodeCmd v = .ok (.absorb (nbField v)) := by
  rw [decodeCmd, if_neg (not_isNop_of_isAbsorb h), if_neg (not_isStart_of_isAbsorb h), if_pos h]

/-- The row FINAL fixes every bit, so it is one word. -/
theorem decodeCmd_of_isFinal {v : Word} (h : isFinal v = true) : decodeCmd v = .ok .final := by
  rw [(rowHit_exact 0x00000003 v).1 h]
  decide

/-- The row ABORT fixes every bit, so it is one word. -/
theorem decodeCmd_of_isAbort {v : Word} (h : isAbort v = true) : decodeCmd v = .ok .abort := by
  rw [(rowHit_exact 0x00000004 v).1 h]
  decide

/-- "Every other 32-bit value is illegal" (R84). -/
theorem decodeCmd_of_no_row {v : Word} (hnop : ¬ isNop v = true) (hstart : ¬ isStart v = true)
    (habsorb : ¬ isAbsorb v = true) (hfinal : ¬ isFinal v = true) (habort : ¬ isAbort v = true) :
    decodeCmd v = .error (rejectReason v) := by
  rw [decodeCmd, if_neg hnop, if_neg hstart, if_neg habsorb, if_neg hfinal, if_neg habort]

/-- The fifteen supported START words of R84 are those of the supported pairs. -/
theorem supported_iff_startWord_listed : ∀ (p : BitVec 3) (w : BitVec 4), supported p w = true ↔
    startWord p w ∈ [(0x00004301 : Word), 0x00005301, 0x00006301, 0x00007301, 0x00008301, 0x00004401, 0x00005401,
      0x00006401, 0x00007401, 0x00008401, 0x00004501, 0x00005501, 0x00006501, 0x00007501, 0x00008501] := by
  decide

/-- The five ABSORB words of R84 are those of NB at most 4. -/
theorem toNat_le_four_iff_absorbWord_listed : ∀ nb : BitVec 3, nb.toNat ≤ 4 ↔
    absorbWord nb ∈ [(0x00000002 : Word), 0x00000012, 0x00000022, 0x00000032, 0x00000042] := by
  decide

/-- Settles O3: each row fixes OP at a value of its own, so the rows tested before the one a word meets do not match;
a word that meets none falls through to the error. -/
theorem opcodeMapAsTabled : Obligations.OpcodeMapAsTabled := by
  unfold Obligations.OpcodeMapAsTabled
  refine ⟨fun v => ⟨?nop, ?start, ?absorb, ?final, ?abort, ?illegal⟩, supported_iff_startWord_listed,
    toNat_le_four_iff_absorbWord_listed⟩
  case nop => exact fun h => decodeCmd_of_isNop ((rowHit_eq_true_iff _ _ v).2 h)
  case start => exact fun h => decodeCmd_of_isStart ((rowHit_eq_true_iff _ _ v).2 h)
  case absorb => exact fun h hnb => decodeCmd_of_isAbsorb ((isAbsorb_eq_true_iff v).2 ⟨h, hnb⟩)
  case final => exact fun h => decodeCmd_of_isFinal ((rowHit_eq_true_iff _ _ v).2 h)
  case abort => exact fun h => decodeCmd_of_isAbort ((rowHit_eq_true_iff _ _ v).2 h)
  case illegal =>
    intro hnop hstart habsorb hfinal habort
    exact ⟨rejectReason v, decodeCmd_of_no_row (mt (rowHit_eq_true_iff _ _ v).1 hnop)
      (mt (rowHit_eq_true_iff _ _ v).1 hstart) (mt (isAbsorb_eq_true_iff v).1 habsorb)
      (mt (rowHit_eq_true_iff _ _ v).1 hfinal) (mt (rowHit_eq_true_iff _ _ v).1 habort)⟩

/-! ## The bus descriptor -/

/-- The writes of R80, by word offset. -/
theorem decodeBus_write (a : BitVec 5) (v : Word) :
    decodeBus ((1 : BitVec 1) ++ a) v =
      if a = 0x00 then .wrCtrl v else if a = 0x03 then .wrData v else if a = 0x04 then .wrMsg v else .wrIgnored a v := by
  obtain ⟨hoffset, hbit⟩ := descriptor_bits 1 a
  have hwrite : ((1 : BitVec 1) ++ a).getLsbD 5 = true := hbit.trans (by decide)
  simp only [decodeBus, hoffset, hwrite, if_true, beq_iff_eq]

/-- The reads of R80: every word offset is one. -/
theorem decodeBus_read (a : BitVec 5) (v : Word) : decodeBus ((0 : BitVec 1) ++ a) v = .rd a := by
  obtain ⟨hoffset, hbit⟩ := descriptor_bits 0 a
  have hread : ((0 : BitVec 1) ++ a).getLsbD 5 = false := hbit.trans (by decide)
  simp only [decodeBus, hoffset, hread, Bool.false_eq_true, if_false]

theorem decodeAccess_read (off : BitVec 7) : decodeAccess (.read off) = .ok (.rd (off.extractLsb' 2 5)) := by
  rw [decodeAccess, descriptor_read, decodeBus_read]

theorem decodeAccess_write (off : BitVec 7) (v : Word) :
    decodeAccess (.write off v) = .ok (decodeBus ((1 : BitVec 1) ++ off.extractLsb' 2 5) v) := by
  rw [decodeAccess, descriptor_write]

/-- Settles O5: bit 5 of a descriptor is W and bits 4:0 are A, and the descriptor of an access at a byte offset is
built from offset bits 6:2. -/
theorem descriptorDecodesAsTabled : Obligations.DescriptorDecodesAsTabled := by
  unfold Obligations.DescriptorDecodesAsTabled
  intro a v
  refine ⟨decodeBus_write a v, decodeBus_read a v, fun off hoff => ?_⟩
  subst hoff
  exact ⟨decodeAccess_read off, decodeAccess_write off v⟩

end Sys2Proof.Machine
end

section
/-! What each instruction of this family does to an idle engine and to a busy one (40_commands.md R100, R104, R108 to
R112), and O17, O21, O28, O29, O31 and O32. -/

namespace Sys2Proof.Machine

open Sys2Proof.Certificates

/-! ## The meaning of each access -/

theorem exec_nop (s : State) : exec .nop s = .next (whenAccepted ctrlOffset 0x00000000 nopEffect s) := rfl

theorem exec_start (p : BitVec 3) (w : BitVec 4) (s : State) :
    exec (.start p w) s = .next (whenAccepted ctrlOffset (startWord p w) (startEffect p w) s) := rfl

theorem exec_absorb (nb : BitVec 3) (s : State) :
    exec (.absorb nb) s = .next (whenAccepted ctrlOffset (absorbWord nb) (absorbEffect nb) s) := rfl

theorem exec_final (s : State) : exec .final s = .next (whenAccepted ctrlOffset 0x00000003 finalEffect s) := rfl

theorem exec_abort (s : State) : exec .abort s = .next (whenAccepted ctrlOffset 0x00000004 abortEffect s) := rfl

theorem exec_wrCtrl (v : Word) (s : State) :
    exec (.wrCtrl v) s = .next (whenAccepted ctrlOffset v (ctrlEffect v) s) := rfl

theorem exec_wrMsg (v : Word) (s : State) :
    exec (.wrMsg v) s = .next (whenAccepted msgOffset v (absorbBytes (lowBytes 4 v)) s) := rfl

theorem exec_wrIgnored (a : BitVec 5) (v : Word) (s : State) : exec (.wrIgnored a v) s = .next s := rfl

/-! ## NOP and ABORT -/

/-- Settles O17: accepted, NOP has the empty effect; on a busy engine it is held as the CTRL write of its word. -/
theorem nopDoesNothing : Obligations.NopDoesNothing := by
  unfold Obligations.NopDoesNothing
  refine ⟨rfl, fun s => ⟨fun hidle => ?_, fun hbusy => ?_⟩⟩
  · rw [exec_nop, whenAccepted_idle hidle, nopEffect]
  · rw [exec_nop, whenAccepted_busy hbusy]
    rfl

/-- Settles O28: accepted, ABORT has its effect, which writes no field of DATA; on a busy engine it is held as the CTRL
write of its word. -/
theorem abortClearsEverythingButData : Obligations.AbortClearsEverythingButData := by
  unfold Obligations.AbortClearsEverythingButData
  refine ⟨rfl, fun s => ⟨fun hidle => ?_, fun hbusy => ?_⟩⟩
  · rw [exec_abort, whenAccepted_idle hidle]
    rfl
  · rw [exec_abort, whenAccepted_busy hbusy]
    rfl

/-! ## The dispatch of a CTRL write (R100) -/

/-- A well-formed word meets a row of the opcode map (R83, R84): OP is 0 to 4, and each value leaves one row. -/
theorem row_of_wellFormedWord {v : Word} (h : wellFormedWord v = true) :
    isNop v = true ∨ isStart v = true ∨ isAbsorb v = true ∨ isFinal v = true ∨ isAbort v = true := by
  rw [isNop_iff, isStart_iff, isAbsorb_iff, isFinal_iff, isAbort_iff]
  obtain ⟨hhigh, h11, h7, hop, hnb, hnbAbsorb, hcfgStart⟩ := (wellFormedWord_iff v).1 h
  have hnbZero : opField v ≠ 2 → nbField v = 0 := hnbAbsorb.resolve_left
  have hcfgZero : opField v ≠ 1 → passesField v = 0 ∧ wordsField v = 0 := hcfgStart.resolve_left
  have hops : ∀ x : BitVec 4, x.toNat ≤ 4 → x = 0 ∨ x = 1 ∨ x = 2 ∨ x = 3 ∨ x = 4 := by decide
  rcases hops _ hop with h0 | h0 | h0 | h0 | h0 <;> simp [h0, hhigh, h11, h7, hnb, hnbZero, hcfgZero]

theorem opField_of_isFinal {v : Word} (h : isFinal v = true) : opField v = 3 := opField_of_rowHit h (by decide)

theorem opField_of_isAbort {v : Word} (h : isAbort v = true) : opField v = 4 := opField_of_rowHit h (by decide)

theorem exec_wrCtrl_of_isNop {v : Word} (h : isNop v = true) (s : State) : exec (.wrCtrl v) s = exec .nop s := by
  obtain rfl := (rowHit_exact 0x00000000 v).1 h
  rw [exec_wrCtrl, exec_nop, funext ctrlEffect_nop]

theorem exec_wrCtrl_of_isStart {v : Word} (h : isStart v = true) (s : State) :
    exec (.wrCtrl v) s = exec (.start (passesField v) (wordsField v)) s := by
  rw [exec_wrCtrl, exec_start, startWord_of_isStart h, funext (ctrlEffect_start h)]

theorem exec_wrCtrl_of_isAbsorb {v : Word} (h : isAbsorb v = true) (s : State) :
    exec (.wrCtrl v) s = exec (.absorb (nbField v)) s := by
  rw [exec_wrCtrl, exec_absorb, absorbWord_of_isAbsorb h, funext (ctrlEffect_absorb h)]

theorem exec_wrCtrl_of_isFinal {v : Word} (h : isFinal v = true) (s : State) :
    exec (.wrCtrl v) s = exec .final s := by
  obtain rfl := (rowHit_exact 0x00000003 v).1 h
  rw [exec_wrCtrl, exec_final, funext ctrlEffect_final]

theorem exec_wrCtrl_of_isAbort {v : Word} (h : isAbort v = true) (s : State) :
    exec (.wrCtrl v) s = exec .abort s := by
  obtain rfl := (rowHit_exact 0x00000004 v).1 h
  rw [exec_wrCtrl, exec_abort, funext ctrlEffect_abort]

/-- The command that OP names, with the fields the word carries (R82, R100). -/
def CommandOfOp (v : Word) (i : Instr) : Prop :=
  (opField v = 0 → i = .nop) ∧ (opField v = 1 → i = .start (passesField v) (wordsField v)) ∧
    (opField v = 2 → i = .absorb (nbField v)) ∧ (opField v = 3 → i = .final) ∧ (opField v = 4 → i = .abort)

/-- A well-formed CTRL write is the command its word decodes to, BUSY or not, and OP names it. -/
theorem exec_wrCtrl_of_wellFormedWord {v : Word} (h : wellFormedWord v = true) (s : State) :
    ∃ i, decodeCmd v = .ok i ∧ exec (.wrCtrl v) s = exec i s ∧ CommandOfOp v i := by
  rcases row_of_wellFormedWord h with hrow | hrow | hrow | hrow | hrow
  · exact ⟨_, decodeCmd_of_isNop hrow, exec_wrCtrl_of_isNop hrow s, by
      simp [CommandOfOp, opField_of_isNop hrow]⟩
  · exact ⟨_, decodeCmd_of_isStart hrow, exec_wrCtrl_of_isStart hrow s, by
      simp [CommandOfOp, opField_of_isStart hrow]⟩
  · exact ⟨_, decodeCmd_of_isAbsorb hrow, exec_wrCtrl_of_isAbsorb hrow s, by
      simp [CommandOfOp, opField_of_isAbsorb hrow]⟩
  · exact ⟨_, decodeCmd_of_isFinal hrow, exec_wrCtrl_of_isFinal hrow s, by
      simp [CommandOfOp, opField_of_isFinal hrow]⟩
  · exact ⟨_, decodeCmd_of_isAbort hrow, exec_wrCtrl_of_isAbort hrow s, by
      simp [CommandOfOp, opField_of_isAbort hrow]⟩

theorem ctrlEffect_illegal {v : Word} (h : wellFormedWord v = false) (s : State) :
    ctrlEffect v s = fail .illegal s := by
  rw [ctrlEffect, h]
  rfl

/-- Settles O29: a busy engine holds the write; on an idle one an ill-formed word is the error entry, and a well-formed
word meets the row of its OP. -/
theorem ctrlWriteIsItsCommand : Obligations.CtrlWriteIsItsCommand := by
  unfold Obligations.CtrlWriteIsItsCommand
  intro v s
  refine ⟨fun hbusy => ?held, fun hidle hill => ?illegal, fun hwf => ?command⟩
  case held =>
    rw [exec_wrCtrl, whenAccepted_busy hbusy]
    rfl
  case illegal =>
    refine ⟨fail .illegal s, ?_, rfl⟩
    rw [exec_wrCtrl, whenAccepted_idle hidle, ctrlEffect_illegal hill]
  case command =>
    obtain ⟨i, hdecode, hexec, hop⟩ := exec_wrCtrl_of_wellFormedWord hwf s
    obtain ⟨t, ht⟩ := exec_next i s
    exact ⟨i, t, hdecode, hexec.trans ht, ht, hop⟩

/-! ## DATA written -/

/-- DATA written with `v` (R109). -/
def withData (v : Word) (s : State) : State := { s with data := v }

theorem exec_wrData (v : Word) (s : State) : exec (.wrData v) s = .next (withData v s) := rfl

@[simp] theorem withData_fp (v : Word) (s : State) : (withData v s).fp = s.fp := rfl
@[simp] theorem withData_count (v : Word) (s : State) : (withData v s).count = s.count := rfl
@[simp] theorem withData_phase (v : Word) (s : State) : (withData v s).phase = s.phase := rfl
@[simp] theorem withData_err (v : Word) (s : State) : (withData v s).err = s.err := rfl
@[simp] theorem withData_cfgPasses (v : Word) (s : State) : (withData v s).cfgPasses = s.cfgPasses := rfl
@[simp] theorem withData_cfgWords (v : Word) (s : State) : (withData v s).cfgWords = s.cfgWords := rfl
@[simp] theorem withData_data (v : Word) (s : State) : (withData v s).data = v := rfl
@[simp] theorem withData_busy (v : Word) (s : State) : (withData v s).busy = s.busy := rfl
@[simp] theorem withData_work (v : Word) (s : State) : (withData v s).work = s.work := rfl

@[simp] theorem withData_same (s : State) : withData s.data s = s := rfl

@[simp] theorem withData_withData (v v' : Word) (s : State) : withData v (withData v' s) = withData v s := rfl

/-- DATA reads as itself, BUSY or not (10_state.md R35, 20_memory.md R59). -/
theorem busRead_data (s : State) : busRead 3 s = returnRead s.data s := by
  have hspecified : unspecifiedWhileBusy 3 = false := by decide
  have hvalue : readRegister 3 s = s.data := rfl
  rw [busRead, hspecified, Bool.and_false, if_neg Bool.false_ne_true, hvalue]

/-- Settles O31: the write has no condition on BUSY, and DATA is no register whose read is unspecified. -/
theorem dataWriteOnlyWritesData : Obligations.DataWriteOnlyWritesData := by
  unfold Obligations.DataWriteOnlyWritesData
  intro v s
  have hread : exec (.rd 3) (withData v s) = .next (returnRead v (withData v s)) :=
    congrArg Host.Outcome.next (busRead_data (withData v s))
  exact ⟨rfl, rfl, hread⟩

/-! ## The writes without effect (R112) -/

/-- The word offset of a byte offset, as a number (20_memory.md R52). -/
theorem toNat_wordOffset (off : BitVec 7) : (off.extractLsb' 2 5).toNat = off.toNat / 4 := by
  revert off; decide

/-- A write at an offset of no CTRL, DATA or MSG is the row WR_IGNORED (30_encoding.md R80). -/
theorem instrOf_write_ignored {off : BitVec 7} (v : Word) (hctrl : off.toNat / 4 ≠ 0) (hdata : off.toNat / 4 ≠ 3)
    (hmsg : off.toNat / 4 ≠ 4) : instrOf (.write off v) = .wrIgnored (off.extractLsb' 2 5) v := by
  rw [← toNat_wordOffset] at hctrl hdata hmsg
  rw [instrOf, descriptor_write, decodeBus_write, if_neg fun h => hctrl (by rw [h]; rfl),
    if_neg fun h => hdata (by rw [h]; rfl), if_neg fun h => hmsg (by rw [h]; rfl)]

/-- Settles O32: such a write decodes to WR_IGNORED, which has no condition on BUSY and no effect. -/
theorem ignoredWriteDoesNothing : Obligations.IgnoredWriteDoesNothing := by
  unfold Obligations.IgnoredWriteDoesNothing
  intro off v s hctrl hdata hmsg
  have hrow := instrOf_write_ignored v hctrl hdata hmsg
  exact ⟨hrow, by rw [hrow, exec_wrIgnored]⟩

/-! ## Absorbing does not read or write DATA, so MSG is DATA then ABSORB (R110) -/

theorem absorbByte_withData (v : Word) (s : State) (b : Byte) :
    absorbByte (withData v s) b = withData v (absorbByte s b) := by
  by_cases hp : pend s.count = 127
  · rw [absorbByte_fill hp, absorbByte_fill (s := withData v s) hp]
    rfl
  · rw [absorbByte_open hp, absorbByte_open (s := withData v s) hp]
    rfl

theorem foldl_absorbByte_withData (bs : List Byte) (v : Word) (s : State) :
    bs.foldl absorbByte (withData v s) = withData v (bs.foldl absorbByte s) := by
  induction bs generalizing s with
  | nil => simp only [List.foldl_nil]
  | cons b bs ih => simp only [List.foldl_cons, absorbByte_withData, ih]

theorem absorbBytes_withData (bs : List Byte) (v : Word) (s : State) :
    absorbBytes bs (withData v s) = withData v (absorbBytes bs s) := by
  by_cases hphase : s.phase = .active
  · by_cases hlen : s.count.toNat + 8 * bs.length ≤ 2 ^ 64 - 1
    · rw [absorbBytes_ok hphase bs hlen, absorbBytes_ok (s := withData v s) hphase bs hlen, foldl_absorbByte_withData]
    · rw [absorbBytes_len hphase bs (by omega), absorbBytes_len (s := withData v s) hphase bs (by simpa using hlen)]
      rfl
  · rw [absorbBytes_seq hphase, absorbBytes_seq (s := withData v s) hphase]
    rfl

@[simp] theorem absorbBytes_data (bs : List Byte) (s : State) : (absorbBytes bs s).data = s.data := by
  unfold absorbBytes
  split_ifs <;> simp

/-- The errors of absorbing are SEQ and LEN (60_exceptions.md R243, R244). -/
theorem absorbBytes_err (bs : List Byte) (s : State) :
    (absorbBytes bs s).err = s.err ∨ (absorbBytes bs s).err = .seq ∨ (absorbBytes bs s).err = .len := by
  unfold absorbBytes
  split_ifs
  · by_cases he : s.err = .none <;> simp [he]
  · by_cases he : s.err = .none <;> simp [he]
  · simp

theorem absorbEffect_of_le {nb : BitVec 3} (h : nb.toNat ≤ 4) (s : State) :
    absorbEffect nb s = absorbBytes (lowBytes nb.toNat s.data) s := by
  rw [absorbEffect, if_pos h]

/-- Settles O21: ABSORB 4 absorbs the four bytes of DATA, MSG the same four bytes, and absorbing neither reads nor
writes DATA. -/
theorem msgWriteIsDataThenAbsorb : Obligations.MsgWriteIsDataThenAbsorb := by
  unfold Obligations.MsgWriteIsDataThenAbsorb
  intro s v
  refine ⟨rfl, fun hidle => ?accepted, fun hbusy => ?held⟩
  case accepted =>
    have habsorb : absorbEffect 4 (withData v s) = withData v (absorbBytes (lowBytes 4 v) s) :=
      (absorbEffect_of_le (by decide) _).trans (absorbBytes_withData (lowBytes 4 v) v s)
    refine ⟨absorbBytes (lowBytes 4 v) s, _, ?_, ?_, habsorb, absorbBytes_data _ _, fun hill => ?_⟩
    · rw [exec_wrMsg, whenAccepted_idle hidle]
    · exact congrArg Host.Outcome.next (whenAccepted_idle (s := withData v s) hidle _ _ _)
    · rcases absorbBytes_err (lowBytes 4 v) s with he | he | he
      · exact he ▸ hill
      · rw [he] at hill; cases hill
      · rw [he] at hill; cases hill
  case held =>
    rw [exec_wrMsg, whenAccepted_busy hbusy]
    rfl

end Sys2Proof.Machine
end

section
/-! A message absorbed by accesses of any sizes is absorbed byte by byte (40_commands.md R114), FINAL's digest of it is
HAVAL of its bytes (R113, R115, 42_padding.md R170), and O56 and O57. -/

namespace Sys2Proof.Machine

open Sys2Proof.Certificates

/-! ## BUSY and WORK do not enter what a byte does -/

theorem engineStep_of_idle {s : State} (hbusy : s.busy = false) (hwork : s.work = .none) : engineStep s = s := by
  unfold engineStep
  rw [← hbusy, ← hwork]

@[simp] theorem engineStep_engineStep (s : State) : engineStep (engineStep s) = engineStep s := rfl

theorem engineStep_withData (v : Word) (s : State) : engineStep (withData v s) = withData v (engineStep s) := rfl

theorem engineStep_absorbByte_engineStep (s : State) (b : Byte) :
    engineStep (absorbByte (engineStep s) b) = engineStep (absorbByte s b) := by
  by_cases hp : pend s.count = 127
  · rw [absorbByte_fill hp, absorbByte_fill (s := engineStep s) hp]
    rfl
  · rw [absorbByte_open hp, absorbByte_open (s := engineStep s) hp]
    rfl

/-- The ENGINE's step before a run of bytes can be left to the one after it. -/
theorem engineStep_foldl_absorbByte_engineStep (bs : List Byte) (s : State) :
    engineStep (bs.foldl absorbByte (engineStep s)) = engineStep (bs.foldl absorbByte s) := by
  induction bs generalizing s with
  | nil => rw [List.foldl_nil, List.foldl_nil, engineStep_engineStep]
  | cons b bs ih => rw [List.foldl_cons, List.foldl_cons, ← ih, engineStep_absorbByte_engineStep, ih]

/-- After a run of bytes on an idle engine the ENGINE's turn is its step: if no block was completed there is nothing
for it to end. -/
theorem engineTurn_foldl_absorbByte {s : State} (hbusy : s.busy = false) (hwork : s.work = .none) (bs : List Byte) :
    engineTurn (bs.foldl absorbByte s) = engineStep (bs.foldl absorbByte s) := by
  rcases foldl_absorbByte_work bs s with ⟨hb, hw, -⟩ | ⟨-, hw, -⟩
  · rw [engineTurn_none (hw.trans hwork), engineStep_of_idle (hb.trans hbusy) (hw.trans hwork)]
  · exact engineTurn_running hw

/-! ## Instructions performed one after the other -/

theorem perform_of_exec {i : Instr} {s t : State} (h : exec i s = .next t) : perform i s = .next (engineTurn t) := by
  rw [perform, h]

theorem performAll_cons {i : Instr} {is : List Instr} {s t : State} (h : perform i s = .next t) :
    performAll (i :: is) s = performAll is t := by
  rw [performAll, h]

theorem performAll_singleton {i : Instr} {s t : State} (h : perform i s = .next t) : performAll [i] s = .next t := by
  rw [performAll_cons h, performAll]

theorem performAll_append {is js : List Instr} {s t : State} (h : performAll is s = .next t) :
    performAll (is ++ js) s = performAll js t := by
  induction is generalizing s with
  | nil => cases h; rfl
  | cons i is ih =>
    obtain ⟨u, hu⟩ := exec_next i s
    rw [performAll_cons (perform_of_exec hu)] at h
    rw [List.cons_append, performAll_cons (perform_of_exec hu), ih h]

/-! ## A data access, and a list of them -/

/-- An open session on an idle engine, with room in COUNT for `n` more bytes. -/
structure OpenFor (n : Nat) (s : State) : Prop where
  busy : s.busy = false
  work : s.work = .none
  phase : s.phase = .active
  room : s.count.toNat + 8 * n ≤ 2 ^ 64 - 1

theorem OpenFor.after_withData {n : Nat} {s : State} (h : OpenFor n s) (v : Word) : OpenFor n (withData v s) :=
  ⟨h.busy, h.work, h.phase, h.room⟩

theorem OpenFor.mono {m n : Nat} {s : State} (h : OpenFor n s) (hmn : m ≤ n) : OpenFor m s :=
  ⟨h.busy, h.work, h.phase, have hroom := h.room; by omega⟩

/-- Absorbing bytes takes exactly their room. -/
theorem OpenFor.after_bytes {n : Nat} {bs : List Byte} {s : State} (h : OpenFor (bs.length + n) s) :
    OpenFor n (engineStep (bs.foldl absorbByte s)) := by
  have hroom := h.room
  refine ⟨rfl, rfl, by simpa using h.phase, ?_⟩
  rw [engineStep_count, foldl_absorbByte_count, BitVec.toNat_add, BitVec.toNat_ofNat]
  omega

/-- The checked absorb of bytes that fit, on an idle engine, with the work it may start completed. -/
theorem engineTurn_absorbBytes {bs : List Byte} {s : State} (h : OpenFor bs.length s) :
    engineTurn (absorbBytes bs s) = engineStep (bs.foldl absorbByte s) := by
  rw [absorbBytes_ok h.phase bs h.room, engineTurn_foldl_absorbByte h.busy h.work]

theorem perform_wrMsg {v : Word} {s : State} (h : OpenFor 4 s) :
    perform (.wrMsg v) s = .next (engineStep ((lowBytes 4 v).foldl absorbByte s)) := by
  have hexec : exec (.wrMsg v) s = .next (absorbBytes (lowBytes 4 v) s) := by
    rw [exec_wrMsg, whenAccepted_idle h.busy]
  rw [perform_of_exec hexec, engineTurn_absorbBytes (by simpa using h)]

theorem perform_wrData {v : Word} {s : State} (hwork : s.work = .none) :
    perform (.wrData v) s = .next (withData v s) := by
  rw [perform_of_exec (exec_wrData v s), engineTurn_none (s := withData v s) hwork]

theorem perform_absorb {nb : BitVec 3} {s : State} (hnb : nb.toNat ≤ 4) (h : OpenFor nb.toNat s) :
    perform (.absorb nb) s = .next (engineStep ((lowBytes nb.toNat s.data).foldl absorbByte s)) := by
  have hexec : exec (.absorb nb) s = .next (absorbBytes (lowBytes nb.toNat s.data) s) := by
    rw [exec_absorb, whenAccepted_idle h.busy, absorbEffect_of_le hnb]
  rw [perform_of_exec hexec, engineTurn_absorbBytes (by simpa using h)]

/-- A data access absorbs its bytes; besides, it may leave another word in DATA. -/
theorem performAll_chunkInstrs {c : Chunk} {s : State} (hwf : ∀ nb, c.2 = some nb → nb.toNat ≤ 4)
    (h : OpenFor (chunkBytes c).length s) :
    ∃ v, performAll (chunkInstrs c) s = .next (withData v (engineStep ((chunkBytes c).foldl absorbByte s))) := by
  obtain ⟨v, _ | nb⟩ := c
  case none =>
    exact ⟨(engineStep ((lowBytes 4 v).foldl absorbByte s)).data, performAll_singleton (perform_wrMsg h)⟩
  case some =>
    have hroom : OpenFor nb.toNat (withData v s) := by simpa [chunkBytes] using h.after_withData v
    refine ⟨v, ?_⟩
    rw [chunkInstrs, performAll_cons (perform_wrData h.work),
      performAll_singleton (perform_absorb (hwf nb rfl) hroom), foldl_absorbByte_withData]
    rfl

/-- A list of data accesses absorbs the bytes of all of them in order (R113, R114): however they are cut, what stands
in the session afterwards is what the bytes leave one by one. -/
theorem performAll_flatMap_chunkInstrs {cs : List Chunk} {s : State} (hwf : chunksWellFormed cs)
    (h : OpenFor (cs.flatMap chunkBytes).length s) :
    ∃ v, performAll (cs.flatMap chunkInstrs) s =
      .next (withData v (engineStep ((cs.flatMap chunkBytes).foldl absorbByte s))) := by
  induction cs generalizing s with
  | nil =>
    refine ⟨s.data, ?_⟩
    rw [List.flatMap_nil, List.flatMap_nil, List.foldl_nil, engineStep_of_idle h.busy h.work, withData_same,
      performAll]
  | cons c cs ih =>
    rw [List.flatMap_cons, List.length_append] at h
    obtain ⟨v, hc⟩ := performAll_chunkInstrs (hwf c List.mem_cons_self) (h.mono (Nat.le_add_right _ _))
    obtain ⟨v', hcs⟩ := ih (fun d hd => hwf d (List.mem_cons_of_mem c hd)) (h.after_bytes.after_withData v)
    refine ⟨v', ?_⟩
    rw [List.flatMap_cons, List.flatMap_cons, performAll_append hc, hcs, List.foldl_append, foldl_absorbByte_withData,
      engineStep_withData, withData_withData, engineStep_foldl_absorbByte_engineStep]

/-! ## FINAL after the accesses -/

/-- The digest that FINAL loads from an open session (R107, 43_tailoring.md R195). -/
def finalDigest (s : State) : Words8 := digestMux (tailor (padAndTail s).fp s.cfgWords) s.cfgWords

@[simp] theorem padAndTail_cfgWords (s : State) : (padAndTail s).cfgWords = s.cfgWords :=
  foldl_absorbByte_cfgWords _ s

@[simp] theorem padAndTail_err (s : State) : (padAndTail s).err = s.err := foldl_absorbByte_err _ s

theorem finalEffect_of_active {s : State} (h : s.phase = .active) :
    finalEffect s = startWork { clearSession (padAndTail s) with digest := finalDigest s, phase := .done } := by
  rw [finalEffect, if_neg (not_not_intro h)]
  simp only [finalDigest, padAndTail_cfgWords]

theorem padAndTail_withData (v : Word) (s : State) : padAndTail (withData v s) = withData v (padAndTail s) :=
  foldl_absorbByte_withData _ v s

theorem engineStep_padAndTail_engineStep (s : State) :
    engineStep (padAndTail (engineStep s)) = engineStep (padAndTail s) :=
  engineStep_foldl_absorbByte_engineStep _ s

/-- The digest depends on neither DATA nor BUSY and WORK. -/
theorem finalDigest_withData_engineStep (v : Word) (s : State) :
    finalDigest (withData v (engineStep s)) = finalDigest s := by
  have hfp : (engineStep (padAndTail (engineStep s))).fp = (engineStep (padAndTail s)).fp :=
    congrArg State.fp (engineStep_padAndTail_engineStep s)
  rw [engineStep_fp, engineStep_fp] at hfp
  rw [finalDigest, finalDigest, padAndTail_withData, withData_fp, hfp]
  rfl

/-- `t` is a completed session on an idle engine: it holds the digest `d` for the width `w`, and ERR is `e`. -/
structure Completed (d : Words8) (w : BitVec 4) (e : ErrCode) (t : State) : Prop where
  phase : t.phase = .done
  busy : t.busy = false
  err : t.err = e
  cfgWords : t.cfgWords = w
  digest : t.digest = d

theorem perform_final {s : State} (hbusy : s.busy = false) (hphase : s.phase = .active) :
    ∃ t, perform .final s = .next t ∧ Completed (finalDigest s) s.cfgWords s.err t := by
  have hexec : exec .final s = .next (finalEffect s) := by rw [exec_final, whenAccepted_idle hbusy]
  refine ⟨_, perform_of_exec hexec, ?_⟩
  rw [finalEffect_of_active hphase, engineTurn_running (startWork_work _)]
  exact ⟨rfl, rfl, padAndTail_err s, padAndTail_cfgWords s, rfl⟩

/-- Data accesses and FINAL complete the session with the digest of its bytes absorbed one by one. -/
theorem performAll_chunks_final {cs : List Chunk} {s : State} (hwf : chunksWellFormed cs)
    (h : OpenFor (cs.flatMap chunkBytes).length s) :
    ∃ t, performAll (cs.flatMap chunkInstrs ++ [.final]) s = .next t ∧
      Completed (finalDigest ((cs.flatMap chunkBytes).foldl absorbByte s)) s.cfgWords s.err t := by
  obtain ⟨v, hchunks⟩ := performAll_flatMap_chunkInstrs hwf h
  obtain ⟨t, hfinal, ht⟩ :=
    perform_final (s := withData v (engineStep ((cs.flatMap chunkBytes).foldl absorbByte s))) rfl
      (by simpa using h.phase)
  refine ⟨t, (performAll_append hchunks).trans (performAll_singleton hfinal), ?_⟩
  simpa [finalDigest_withData_engineStep] using ht

/-- Settles O56: either list leaves the digest of the bytes absorbed one by one, and the bytes are the same. -/
theorem digestIndependentOfChunking : Obligations.DigestIndependentOfChunking := by
  unfold Obligations.DigestIndependentOfChunking
  intro s cs ds hbusy hwork hphase hcs hds hbytes hroom
  have hopen : OpenFor (cs.flatMap chunkBytes).length s := ⟨hbusy, hwork, hphase, hroom⟩
  obtain ⟨t, hrun, ht⟩ := performAll_chunks_final hcs hopen
  obtain ⟨t', hrun', ht'⟩ := performAll_chunks_final hds (hbytes ▸ hopen)
  refine ⟨t, t', hrun, hrun', ht.phase, ht'.phase, ht.busy, ?_⟩
  rw [ht.digest, ht'.digest, hbytes]

/-! ## The fingerprint of a byte stream (R113) -/

theorem compress_eq_compressWords {p : BitVec 3} (hp : supportedPasses p = true) (fp : Words8)
    (blk : List Host.Cell) : compress fp blk p = compressWords (wordsOf (Memory.read blk)) p fp := by
  rw [compress, working, if_pos hp]
  rfl

/-- A compression reads the 128 bytes of its block and no other. -/
theorem compressWords_congr {b b' : Nat → Byte} (h : ∀ n < 128, b n = b' n) (p : BitVec 3) (fp : Words8) :
    compressWords (wordsOf b) p fp = compressWords (wordsOf b') p fp := by
  have hwords : ∀ j < 32, wordsOf b j = wordsOf b' j := fun j hj => by
    rw [wordsOf, wordsOf, h _ (by omega), h _ (by omega), h _ (by omega), h _ (by omega)]
  rw [compressWords, compressWords, runRounds_congr hwords]

/-- The fingerprint of the blocks that stand does not change when the stream goes on. -/
theorem fingerprintAfter_append (p : BitVec 3) (m bs : List Byte) {k : Nat} (hk : 128 * k ≤ m.length) :
    fingerprintAfter p (m ++ bs) k = fingerprintAfter p m k := by
  induction k with
  | zero => rfl
  | succ k ih =>
    rw [fingerprintAfter, fingerprintAfter, ih (by omega)]
    exact compressWords_congr (fun n hn => List.getD_append m bs 0 _ (by omega)) p _

/-- The session `s` with `p` passes has absorbed the stream `m` from IV: FP is of its whole blocks, BLK holds the bytes
left over. -/
structure Streamed (p : BitVec 3) (m : List Byte) (s : State) : Prop where
  passes : s.cfgPasses = p
  counted : s.count = BitVec.ofNat 64 (8 * m.length)
  chained : s.fp = fingerprintAfter p m (m.length / 128)
  blkWf : Memory.wf s.blk
  pending : ∀ n < m.length % 128, Memory.read s.blk n = m.getD (128 * (m.length / 128) + n) 0

theorem Streamed.pend_count {p : BitVec 3} {m : List Byte} {s : State} (h : Streamed p m s) :
    pend s.count = m.length % 128 := by
  rw [pend_eq, h.counted, BitVec.toNat_ofNat]
  omega

/-- With the next byte of the stream written at PEND, BLK holds the bytes left over and that one. -/
theorem Streamed.read_write {p : BitVec 3} {m : List Byte} {s : State} (h : Streamed p m s) (b : Byte) {n : Nat}
    (hn : n ≤ m.length % 128) :
    Memory.read (Memory.write s.blk (pend s.count) b) n = (m ++ [b]).getD (128 * (m.length / 128) + n) 0 := by
  rw [Memory.read_write h.blkWf, h.pend_count]
  split
  · next hlast =>
    have hpos : 128 * (m.length / 128) + n = m.length := by omega
    simp [hpos]
  · next hbefore => rw [h.pending n (by omega), List.getD_append _ _ _ _ (by omega)]

theorem absorbByte_fp (s : State) (b : Byte) :
    (absorbByte s b).fp =
      if pend s.count = 127 then compress s.fp (Memory.write s.blk (pend s.count) b) s.cfgPasses else s.fp := by
  unfold absorbByte
  split <;> rfl

/-- One more byte: it joins the bytes left over, and the byte that completes a block is followed by the compression of
that block (R101). -/
theorem Streamed.snoc {p : BitVec 3} (hp : supportedPasses p = true) {m : List Byte} {s : State}
    (h : Streamed p m s) (b : Byte) : Streamed p (m ++ [b]) (absorbByte s b) where
  passes := (absorbByte_cfgPasses s b).trans h.passes
  counted := by
    rw [absorbByte_count, h.counted, List.length_append, List.length_singleton]
    rw [Nat.mul_add, BitVec.ofNat_add]
    rfl
  chained := by
    rw [absorbByte_fp, h.pend_count, List.length_append, List.length_singleton]
    split
    · next hfull =>
      have hblocks : (m.length + 1) / 128 = m.length / 128 + 1 := by omega
      rw [hblocks, fingerprintAfter, fingerprintAfter_append p m [b] (by omega), ← h.chained, h.passes,
        compress_eq_compressWords hp, ← h.pend_count]
      exact compressWords_congr (fun n hn => h.read_write b (by omega)) p s.fp
    · next hroom =>
      have hblocks : (m.length + 1) / 128 = m.length / 128 := by omega
      rw [hblocks, fingerprintAfter_append p m [b] (by omega), h.chained]
  blkWf := by
    rw [absorbByte_blk]
    exact Memory.write_wf h.blkWf _ _
  pending := fun n hn => by
    rw [List.length_append, List.length_singleton] at hn ⊢
    have hblocks : (m.length + 1) / 128 = m.length / 128 := by omega
    rw [absorbByte_blk, h.read_write b (by omega), hblocks]

theorem Streamed.append {p : BitVec 3} (hp : supportedPasses p = true) {m : List Byte} {s : State}
    (h : Streamed p m s) (bs : List Byte) : Streamed p (m ++ bs) (bs.foldl absorbByte s) := by
  induction bs generalizing m s with
  | nil => simpa using h
  | cons b bs ih => simpa using ih (h.snoc hp b)

/-! ## FINAL's digest is HAVAL of the stream (R115) -/

/-- What FINAL absorbs besides is the padding and the tail of the padded message (42_padding.md R170). -/
theorem Streamed.padded {p : BitVec 3} (hp : supportedPasses p = true) {m : List Byte} {s : State}
    (h : Streamed p m s) : Streamed p (paddedMessage p s.cfgWords m) (padAndTail s) := by
  rw [padAndTail, paddedMessage, List.append_assoc, h.pend_count, h.passes, h.counted]
  exact h.append hp _

theorem Streamed.finalDigest_eq {p : BitVec 3} (hp : supportedPasses p = true) {m : List Byte} {s : State}
    (h : Streamed p m s) : finalDigest s = digestOf p s.cfgWords m := by
  rw [finalDigest, (h.padded hp).chained, digestOf]

/-! ## A whole session -/

/-- START opens a session that has absorbed nothing, with the whole count as room (R105). -/
theorem perform_start {p : BitVec 3} {w : BitVec 4} {n : Nat} {s : State} (hbusy : s.busy = false)
    (hwork : s.work = .none) (hsupported : supported p w = true) (hroom : 8 * n ≤ 2 ^ 64 - 1) :
    ∃ t, perform (.start p w) s = .next t ∧ Streamed p [] t ∧ OpenFor n t ∧ t.err = .none ∧ t.cfgWords = w := by
  have hexec : exec (.start p w) s = .next (startEffect p w s) := by rw [exec_start, whenAccepted_idle hbusy]
  refine ⟨_, perform_of_exec hexec, ?_⟩
  rw [startEffect, if_pos hsupported, engineTurn_none (by exact hwork)]
  exact ⟨⟨rfl, rfl, rfl, ⟨List.Pairwise.nil, by simp⟩, by simp⟩, ⟨hbusy, hwork, rfl, by simpa using hroom⟩, rfl, rfl⟩

/-- The multiplexer of the digest gives 0 from word `w` on (43_tailoring.md R195). -/
theorem wordAt_digestOf_high (p : BitVec 3) (w : BitVec 4) (msg : List Byte) {i : Nat} (hi : i < 8)
    (hw : w.toNat ≤ i) : wordAt (digestOf p w msg) i = 0 := by
  rw [digestOf, wordAt_digestMux _ _ hi, if_neg (by omega)]

/-- Settles O57: START opens an empty stream, the data accesses absorb their bytes one by one, and FINAL's digest is
HAVAL of the stream. -/
theorem sessionComputesDigest : Obligations.SessionComputesDigest := by
  unfold Obligations.SessionComputesDigest
  intro s p w cs hbusy hwork hsupported hcs hroom
  have hp : supportedPasses p = true := (Bool.and_eq_true_iff.1 hsupported).1
  obtain ⟨u, hstart, hstream, hopen, huerr, hucfg⟩ := perform_start hbusy hwork hsupported hroom
  obtain ⟨t, hrun, ht⟩ := performAll_chunks_final hcs hopen
  have hdigest : t.digest = digestOf p w (cs.flatMap chunkBytes) := by
    rw [ht.digest, (hstream.append hp _).finalDigest_eq hp, foldl_absorbByte_cfgWords, hucfg, List.nil_append]
  refine ⟨t, (performAll_cons hstart).trans hrun, ht.phase, ht.busy, ht.err.trans huerr, ht.cfgWords.trans hucfg,
    hdigest, fun i hi hwi => ?_⟩
  rw [hdigest, wordAt_digestOf_high p w _ hi hwi]

end Sys2Proof.Machine
end

section
/-! One step of a round (41_compression.md R141 to R144), the shift-register form as the same step seen through the
sliding window (R149), and O35 and O36. -/

namespace Sys2Proof.Machine

/-- An index of an eight-word array counts modulo 8. -/
theorem wordAt_congr (v : Words8) {i j : Nat} (h : i % 8 = j % 8) : wordAt v i = wordAt v j := by
  rw [← wordAt_mod v i, h, wordAt_mod]

theorem rotr_eq_rotateRight (a : Word) {n : Nat} (h : n < 32) : rotr a n = a.rotateRight n := by
  rw [BitVec.rotateRight_def, Nat.mod_eq_of_lt h, rotr]

theorem wordAt_roundStep (r : RoundTable) (w : Nat → Word) (t : Words8) (i j : Nat) :
    wordAt (roundStep r w t i) j =
      if j % 8 = outIndex i % 8 then
        newWord r w i (applyRow r.fn r.phi (windowWord t (outIndex i))) (wordAt t (outIndex i))
      else wordAt t j :=
  wordAt_setWordAt t (outIndex i) j _

/-- Settles O35: the one register written is T[o], and the model's rotations are those of the library. -/
theorem stepWritesOneWord : Obligations.StepWritesOneWord := by
  unfold Obligations.StepWritesOneWord
  intro r w t i j hj
  rw [wordAt_roundStep, outIndex]
  by_cases hout : j = 7 - i % 8
  · rw [← hout, if_pos rfl, if_pos rfl, newWord, rotr_eq_rotateRight _ (by decide), rotr_eq_rotateRight _ (by decide)]
    rfl
  · rw [if_neg hout, if_neg (by omega)]

/-! ## The shift-register form (R149) -/

/-- The window's eighth word is the output register. -/
theorem windowWord_seven (t : Words8) (o : Nat) : windowWord t o 7 = wordAt t o :=
  wordAt_congr t (by omega)

/-- Where the output register is T[7], the window is T in its own order. -/
theorem windowWord_outIndex_of_mod_eq_zero (t : Words8) {n : Nat} (h : n % 8 = 0) (k : Nat) :
    windowWord t (outIndex n) k = wordAt t k :=
  wordAt_congr t (by unfold outIndex; omega)

theorem wordAt_shiftStep (r : RoundTable) (w : Nat → Word) (s : Words8) (i k : Nat) :
    wordAt (shiftStep r w s i) k =
      if k % 8 = 0 then newWord r w i (applyRow r.fn r.phi (wordAt s)) (wordAt s 7) else wordAt s (k + 7) := by
  have hshift : ∀ j < 8, wordAt (shiftStep r w s i) j =
      if j = 0 then newWord r w i (applyRow r.fn r.phi (wordAt s)) (wordAt s 7) else wordAt s (j + 7) := by
    intro j hj
    interval_cases j <;> rfl
  rw [← wordAt_mod, hshift _ (Nat.mod_lt k (by decide)), wordAt_congr s (Nat.mod_add_mod k 8 7)]

/-- The window slides: after a step, its first word is the one just written and the others move up by one. -/
theorem windowWord_roundStep (r : RoundTable) (w : Nat → Word) (t : Words8) (i k : Nat) :
    windowWord (roundStep r w t i) (outIndex (i + 1)) k =
      if k % 8 = 0 then
        newWord r w i (applyRow r.fn r.phi (windowWord t (outIndex i))) (windowWord t (outIndex i) 7)
      else windowWord t (outIndex i) (k + 7) := by
  have hout : (outIndex (i + 1) + 1) % 8 = outIndex i % 8 := by unfold outIndex; omega
  rw [windowWord_seven, windowWord, wordAt_roundStep]
  by_cases hk : k % 8 = 0
  · rw [if_pos hk, if_pos (by omega)]
  · rw [if_neg hk, if_neg (by omega)]
    exact wordAt_congr t (by omega)

/-- One step of each form keeps the shift register equal to the window: both compute the new word from the same eight
words and move the other seven up. -/
theorem shiftStep_eq_window {r : RoundTable} {w : Nat → Word} {s t : Words8} {i : Nat}
    (h : wordAt s = windowWord t (outIndex i)) :
    wordAt (shiftStep r w s i) = windowWord (roundStep r w t i) (outIndex (i + 1)) := by
  funext k
  rw [wordAt_shiftStep, windowWord_roundStep, h]

/-- The simulation: at the start of step n the shift register is the window of the fixed registers. -/
theorem foldl_shiftStep_eq_window (r : RoundTable) (w : Nat → Word) (t : Words8) (n : Nat) :
    wordAt ((List.range n).foldl (shiftStep r w) t) =
      windowWord ((List.range n).foldl (roundStep r w) t) (outIndex n) := by
  induction n with
  | zero => exact funext fun k => (windowWord_outIndex_of_mod_eq_zero t rfl k).symm
  | succ n ih =>
    rw [List.range_succ, List.foldl_concat, List.foldl_concat]
    exact shiftStep_eq_window ih

/-- After every 8 steps S = T. -/
theorem foldl_shiftStep_eq_of_mod_eq_zero (r : RoundTable) (w : Nat → Word) (t : Words8) {n : Nat} (h : n % 8 = 0) :
    (List.range n).foldl (shiftStep r w) t = (List.range n).foldl (roundStep r w) t :=
  words8_ext fun k _ => by rw [foldl_shiftStep_eq_window, windowWord_outIndex_of_mod_eq_zero _ h]

/-- A round is 32 steps, so the two forms agree round by round. -/
theorem shiftRounds_eq_runRounds (w : Nat → Word) (p : BitVec 3) (fp : Words8) :
    shiftRounds w p fp = runRounds w p fp := by
  have hround : (fun s r => (List.range 32).foldl (shiftStep r w) s) = runRound w :=
    funext₂ fun s r => foldl_shiftStep_eq_of_mod_eq_zero r w s rfl
  rw [shiftRounds, hround, runRounds]

/-- Settles O36: at every step the shift register is the window of T, and a round is a multiple of 8 steps. -/
theorem shiftRegisterFormAgrees : Obligations.ShiftRegisterFormAgrees := by
  unfold Obligations.ShiftRegisterFormAgrees
  intro w p fp
  refine ⟨shiftRounds_eq_runRounds w p fp, fun r _ t n => ?_⟩
  have hwindow := foldl_shiftStep_eq_window r w t n
  refine ⟨fun k _ => congrFun hwindow k, ?_, foldl_shiftStep_eq_of_mod_eq_zero r w t⟩
  exact (congrFun hwindow 7).trans (windowWord_seven _ _)

end Sys2Proof.Machine
end

section
/-! The padding and the tail (42_padding.md R171 to R176): the padding's length and bytes, the tail bytes as numbers, and
O43 and O44. -/

namespace Sys2Proof.Machine

/-! ## The padding -/

theorem one_le_padLength {rmd : Nat} (h : rmd < 128) : 1 ≤ padLength rmd := by
  unfold padLength
  split <;> omega

theorem padLength_le (rmd : Nat) : padLength rmd ≤ 128 := by
  unfold padLength
  split <;> omega

/-- A message that ends before byte 118 of its block is padded within the block, any other one into the next block. -/
theorem add_padLength {rmd : Nat} (h : rmd < 128) :
    rmd + padLength rmd = if rmd < 118 then 118 else 118 + 128 := by
  unfold padLength
  split <;> omega

theorem add_padLength_mod {rmd : Nat} (h : rmd < 128) : (rmd + padLength rmd) % 128 = 118 := by
  rw [add_padLength h]
  split <;> rfl

/-- The padding read past its end is 0 as well, so no bound on the index is needed. -/
theorem padding_getD (rmd k : Nat) : (padding rmd).getD k 0 = if k = 0 then 0x01 else 0x00 := by
  cases k with
  | zero => rfl
  | succ k => simp [padding]

/-- Settles O43: the padding has `padLength` bytes, whose two cases both end at byte 118 of a block. -/
theorem paddingReaches118 : Obligations.PaddingReaches118 := by
  unfold Obligations.PaddingReaches118
  intro rmd h
  rw [padding_length rmd h]
  exact ⟨one_le_padLength h, padLength_le rmd, add_padLength_mod h, fun k _ => padding_getD rmd k⟩

/-! ## The tail -/

/-- FPTLEN does not overflow its ten bits. -/
theorem toNat_fptlen (w : BitVec 4) : (fptlen w).toNat = 32 * w.toNat := by
  unfold fptlen
  bv_omega

/-- FPTLEN is a multiple of 32, so bits 7:6 of tail byte 0 are 0 (R173). -/
theorem fptlen_low_bits (w : BitVec 4) : (fptlen w).extractLsb' 0 2 = 0 := by
  apply BitVec.eq_of_toNat_eq
  rw [BitVec.extractLsb'_toNat, toNat_fptlen, Nat.shiftRight_zero]
  change 32 * w.toNat % 4 = 0
  omega

/-- Tail byte 0 is PASSES above VERSION = 1. -/
theorem toNat_tailByte0 (p : BitVec 3) (w : BitVec 4) : (tailByte0 p w).toNat = 8 * p.toNat + 1 := by
  rw [tailByte0, fptlen_low_bits]
  revert p
  decide

/-- Tail byte 1 is FPTLEN / 4, a byte for every width. -/
theorem toNat_tailByte1 (w : BitVec 4) : (tailByte1 w).toNat = 8 * w.toNat := by
  rw [tailByte1, BitVec.extractLsb'_toNat, toNat_fptlen, Nat.shiftRight_eq_div_pow]
  omega

theorem toNat_countByte (k : Nat) (c : BitVec 64) : (countByte k c).toNat = c.toNat / 2 ^ (8 * k) % 256 := by
  rw [countByte, BitVec.extractLsb'_toNat, Nat.shiftRight_eq_div_pow]

theorem tailBytes_getD_zero (p : BitVec 3) (w : BitVec 4) (c : BitVec 64) :
    (tailBytes p w c).getD 0 0 = tailByte0 p w := rfl

theorem tailBytes_getD_one (p : BitVec 3) (w : BitVec 4) (c : BitVec 64) :
    (tailBytes p w c).getD 1 0 = tailByte1 w := rfl

theorem tailBytes_getD_two_add (p : BitVec 3) (w : BitVec 4) (c : BitVec 64) {k : Nat} (hk : k < 8) :
    (tailBytes p w c).getD (2 + k) 0 = countByte k c := by
  simp [tailBytes, Nat.add_comm 2 k, hk]

/-- Settles O44: each tail byte as a number. The equations hold of every pair of passes and width, supported or not. -/
theorem tailBytesAsGiven : Obligations.TailBytesAsGiven := by
  unfold Obligations.TailBytesAsGiven
  intro p w c _
  rw [tailBytes_getD_zero, tailBytes_getD_one]
  refine ⟨tailBytes_length p w c, toNat_tailByte0 p w, toNat_tailByte1 w, fun k hk => ?_⟩
  rw [tailBytes_getD_two_add p w c hk, toNat_countByte]

end Sys2Proof.Machine
end

section
/-! The error conditions (60_exceptions.md): what absorbs on an idle engine, when it is LEN or SEQ, which words are
ILLEGAL, and O22, O23 and O24. -/

namespace Sys2Proof.Machine

open Sys2Proof.Certificates

/-! ## The error entry and the effects of an idle engine -/

/-- `fail` is the error entry as R248 writes it out. -/
theorem failed_fail (c : ErrCode) (s : State) : Failed c s (fail c s) := rfl

theorem exec_absorb_idle {s : State} (hidle : s.busy = false) {nb : BitVec 3} (hnb : nb.toNat ≤ 4) :
    exec (.absorb nb) s = .next (absorbBytes (lowBytes nb.toNat s.data) s) := by
  rw [exec_absorb, whenAccepted_idle hidle, absorbEffect_of_le hnb]

theorem exec_wrMsg_idle {s : State} (hidle : s.busy = false) (v : Word) :
    exec (.wrMsg v) s = .next (absorbBytes (lowBytes 4 v) s) := by
  rw [exec_wrMsg, whenAccepted_idle hidle]

theorem exec_final_idle {s : State} (hidle : s.busy = false) : exec .final s = .next (finalEffect s) := by
  rw [exec_final, whenAccepted_idle hidle]

/-! ## LEN (R243) -/

/-- Bytes that overflow COUNT are the error entry with LEN. -/
theorem absorbBytes_overflow {s : State} (hphase : s.phase = .active) {bs : List Byte} {n : Nat} (hn : bs.length = n)
    (hover : s.count.toNat + 8 * n > 2 ^ 64 - 1) : Failed .len s (absorbBytes bs s) := by
  rw [absorbBytes_len hphase bs (hn ▸ hover)]
  exact failed_fail .len s

/-- Bytes that fit in COUNT raise nothing and leave the session open. -/
theorem absorbBytes_fit {s : State} (hphase : s.phase = .active) {bs : List Byte} {n : Nat} (hn : bs.length = n)
    (hfit : s.count.toNat + 8 * n ≤ 2 ^ 64 - 1) :
    (absorbBytes bs s).err = s.err ∧ (absorbBytes bs s).phase = .active := by
  rw [absorbBytes_ok hphase bs (hn ▸ hfit)]
  exact ⟨foldl_absorbByte_err bs s, (foldl_absorbByte_phase bs s).trans hphase⟩

/-- FINAL in an open session absorbs through the unchecked path (42_padding.md R177): no error, and the phase is DONE. -/
theorem finalEffect_active {s : State} (hphase : s.phase = .active) :
    (finalEffect s).err = s.err ∧ (finalEffect s).phase = .done := by
  rw [finalEffect_of_active hphase]
  exact ⟨padAndTail_err s, rfl⟩

/-- Settles O22: ABSORB and MSG make the one checked absorb, with nb and with 4 bytes, and FINAL makes none. -/
theorem lengthOverflowRaisesLen : Obligations.LengthOverflowRaisesLen := by
  unfold Obligations.LengthOverflowRaisesLen
  intro s hidle hphase
  refine ⟨fun nb hnb hover => ?absorbOver, fun v hover => ?msgOver, fun nb t hnb herr hfit hexec => ?absorbFit,
    fun v t herr hfit hexec => ?msgFit, ?final⟩
  case absorbOver =>
    exact ⟨_, exec_absorb_idle hidle hnb, absorbBytes_overflow hphase (lowBytes_length _ _) hover⟩
  case msgOver => exact ⟨_, exec_wrMsg_idle hidle v, absorbBytes_overflow hphase (lowBytes_length _ _) hover⟩
  case absorbFit =>
    obtain rfl := Host.Outcome.next.inj ((exec_absorb_idle hidle hnb).symm.trans hexec)
    exact herr ▸ absorbBytes_fit hphase (lowBytes_length _ _) hfit
  case msgFit =>
    obtain rfl := Host.Outcome.next.inj ((exec_wrMsg_idle hidle v).symm.trans hexec)
    exact herr ▸ absorbBytes_fit hphase (lowBytes_length _ _) hfit
  case final => exact ⟨_, exec_final_idle hidle, finalEffect_active hphase⟩

/-! ## SEQ (R244) -/

/-- Outside ACTIVE absorbing is the error entry with SEQ, whatever the bytes: an empty list too. -/
theorem absorbBytes_misuse {s : State} (hphase : s.phase ≠ .active) (bs : List Byte) :
    Failed .seq s (absorbBytes bs s) := by
  rw [absorbBytes_seq hphase]
  exact failed_fail .seq s

theorem finalEffect_misuse {s : State} (hphase : s.phase ≠ .active) : Failed .seq s (finalEffect s) := by
  rw [finalEffect, if_pos hphase]
  exact failed_fail .seq s

/-- START clears ERR first, so what it leaves there is its own: none, or CFG (R242). -/
theorem startEffect_err (p : BitVec 3) (w : BitVec 4) (s : State) :
    (startEffect p w s).err = if supported p w then .none else .cfg := by
  unfold startEffect
  split <;> rfl

theorem startEffect_err_ne_seq (p : BitVec 3) (w : BitVec 4) (s : State) : (startEffect p w s).err ≠ .seq := by
  rw [startEffect_err]
  split <;> decide

/-- Settles O23: outside ACTIVE the absorb path and FINAL are the error entry; START leaves no error or CFG, ABORT
leaves none, and NOP leaves ERR as it is. -/
theorem misuseRaisesSeq : Obligations.MisuseRaisesSeq := by
  unfold Obligations.MisuseRaisesSeq
  intro s hidle hphase
  refine ⟨fun nb hnb => ⟨_, exec_absorb_idle hidle hnb, absorbBytes_misuse hphase _⟩,
    fun v => ⟨_, exec_wrMsg_idle hidle v, absorbBytes_misuse hphase _⟩,
    ⟨_, exec_final_idle hidle, finalEffect_misuse hphase⟩, ?never⟩
  rintro _ (⟨p, w, rfl⟩ | rfl | rfl)
  case never.inl =>
    refine ⟨startEffect p w s, ?_, fun hseq => absurd hseq (startEffect_err_ne_seq p w s)⟩
    rw [exec_start, whenAccepted_idle hidle]
  case never.inr.inl =>
    refine ⟨abortEffect s, ?_, fun hseq => ?_⟩
    · rw [exec_abort, whenAccepted_idle hidle]
    · rw [abortEffect_err] at hseq
      cases hseq
  case never.inr.inr =>
    refine ⟨s, ?_, fun hseq => ⟨rfl, hseq⟩⟩
    rw [exec_nop, whenAccepted_idle hidle, nopEffect]

/-! ## ILLEGAL (R245) -/

/-- NB = 5 to 7 makes the word of an ABSORB ill-formed (30_encoding.md R83). -/
theorem absorbWord_illFormed {nb : BitVec 3} (hnb : 4 < nb.toNat) : wellFormedWord (absorbWord nb) = false := by
  refine Bool.eq_false_iff.2 fun hwf => ?_
  obtain ⟨-, -, -, -, hle, -, -⟩ := (wellFormedWord_iff _).1 hwf
  obtain ⟨-, -, -, -, -, hfield, -⟩ := absorbWord_fields nb
  rw [hfield] at hle
  omega

theorem absorbEffect_illegal {nb : BitVec 3} (hnb : 4 < nb.toNat) (s : State) :
    absorbEffect nb s = fail .illegal s := by
  rw [absorbEffect, if_neg (by omega)]

/-- Settles O24: the first clause is the dispatch of an ill-formed CTRL write (O29); an ABSORB with NB = 5 to 7 has
such a word and the same effect. -/
theorem illegalWordRaisesIllegal : Obligations.IllegalWordRaisesIllegal := by
  unfold Obligations.IllegalWordRaisesIllegal
  intro s hidle
  refine ⟨fun v hill => ?word, fun nb hnb => ⟨absorbWord_illFormed hnb, fail .illegal s, ?absorb, failed_fail _ s⟩⟩
  case word =>
    obtain ⟨-, hillegal, -⟩ := ctrlWriteIsItsCommand v s
    exact hillegal hidle hill
  case absorb => rw [exec_absorb, whenAccepted_idle hidle, absorbEffect_illegal hnb]

end Sys2Proof.Machine
end

section
/-! Encoding and decoding (30_encoding.md R80 to R87): an access and the word of the opcode table it is, what each row
encodes, and O1, O2, O4 and O6. -/

namespace Sys2Proof.Machine

/-! ## Accesses as words of the opcode table (log 13) -/

theorem accessOfTableWord_cmd (v : Word) : accessOfTableWord 32 v.toNat = some (.cmd v) := by
  rw [accessOfTableWord, beq_self_eq_true, if_pos rfl, if_pos v.isLt, BitVec.ofNat_toNat, BitVec.setWidth_eq]

theorem accessOfTableWord_read (a : BitVec 5) :
    accessOfTableWord 8 (descriptor false (byteOffset a)).toNat = some (.read (byteOffset a)) := by
  revert a; decide

/-- The descriptor of a write: W stands above the word offset (R80). -/
theorem toNat_descriptor_write (a : BitVec 5) : (descriptor true (byteOffset a)).toNat = 32 + a.toNat := by
  revert a; decide

/-- The bits of a write: the descriptor is the low byte, whose bits 7:6 are 0, and the value stands above it. -/
theorem accessOfTableWord_write (a : BitVec 5) (v : Word) :
    accessOfTableWord 40 ((descriptor true (byteOffset a)).toNat + 256 * v.toNat) =
      some (.write (byteOffset a) v) := by
  rw [toNat_descriptor_write]
  obtain ⟨n, hn⟩ : ∃ n, n = 32 + a.toNat + 256 * v.toNat := ⟨_, rfl⟩
  have ha : a.toNat < 32 := a.isLt
  have hv : v.toNat < 2 ^ 32 := v.isLt
  have hfits : ¬ (n % 256 / 64 != 0 || decide (2 ^ 40 ≤ n)) = true := by
    simp only [Bool.or_eq_true, bne_iff_ne, decide_eq_true_eq]
    omega
  have hwrite : n.testBit 5 = true := by
    rw [Nat.testBit_eq_decide_div_mod_eq, decide_eq_true_eq]
    omega
  have hoffset : BitVec.ofNat 5 n = a := BitVec.eq_of_toNat_eq (by rw [BitVec.toNat_ofNat]; omega)
  have hvalue : BitVec.ofNat 32 (n / 256) = v := BitVec.eq_of_toNat_eq (by rw [BitVec.toNat_ofNat]; omega)
  rw [← hn, accessOfTableWord, if_neg (by decide), if_neg hfits, if_pos hwrite, hoffset, hvalue]

/-- The table's bits of an encoded instruction are those of its access. -/
theorem accessOfTableWord_encode (i : Instr) :
    accessOfTableWord (tableWordOf (encode i)).1 (tableWordOf (encode i)).2 = some (encode i) := by
  cases i with
  | nop | start | absorb | final | abort => exact accessOfTableWord_cmd _
  | wrCtrl | wrData | wrMsg | wrIgnored => exact accessOfTableWord_write _ _
  | rd => exact accessOfTableWord_read _

/-! ## Each row decodes what it encodes -/

theorem isStart_startWord (p : BitVec 3) (w : BitVec 4) : isStart (startWord p w) = true := by
  obtain ⟨hhigh, -, h11, -, h7, hnb, hop⟩ := startWord_fields p w
  exact (isStart_iff _).2 ⟨hhigh, h11, h7, hnb, hop⟩

theorem isAbsorb_absorbWord {nb : BitVec 3} (hnb : nb.toNat ≤ 4) : isAbsorb (absorbWord nb) = true := by
  obtain ⟨hhigh, hw, h11, hp, h7, hfield, hop⟩ := absorbWord_fields nb
  exact (isAbsorb_iff _).2 ⟨hhigh, hw, h11, hp, h7, hop, hfield.symm ▸ hnb⟩

theorem decodeCmd_startWord (p : BitVec 3) (w : BitVec 4) : decodeCmd (startWord p w) = .ok (.start p w) := by
  obtain ⟨-, hw, -, hp, -⟩ := startWord_fields p w
  rw [decodeCmd_of_isStart (isStart_startWord p w), hp, hw]

theorem decodeCmd_absorbWord {nb : BitVec 3} (hnb : nb.toNat ≤ 4) : decodeCmd (absorbWord nb) = .ok (.absorb nb) := by
  obtain ⟨-, -, -, -, -, hfield, -⟩ := absorbWord_fields nb
  rw [decodeCmd_of_isAbsorb (isAbsorb_absorbWord hnb), hfield]

/-- A write at a word offset decodes by that offset. -/
theorem decodeAccess_write_byteOffset (a : BitVec 5) (v : Word) :
    decodeAccess (.write (byteOffset a) v) =
      .ok (if a = 0x00 then .wrCtrl v else if a = 0x03 then .wrData v else if a = 0x04 then .wrMsg v
        else .wrIgnored a v) := by
  rw [decodeAccess_write, byteOffset_word, decodeBus_write]

theorem decodeAccess_encode {i : Instr} (h : wellFormed i = true) : decodeAccess (encode i) = .ok i := by
  cases i with
  | nop => exact decodeCmd_of_isNop (by decide)
  | start p w => exact decodeCmd_startWord p w
  | absorb nb => exact decodeCmd_absorbWord (of_decide_eq_true h)
  | final => exact decodeCmd_of_isFinal (by decide)
  | abort => exact decodeCmd_of_isAbort (by decide)
  | wrCtrl v => exact decodeAccess_write_byteOffset 0 v
  | wrData v => exact decodeAccess_write_byteOffset 3 v
  | wrMsg v => exact decodeAccess_write_byteOffset 4 v
  | wrIgnored a v =>
    simp only [wellFormed, Bool.and_eq_true, bne_iff_ne] at h
    obtain ⟨⟨hctrl, hdata⟩, hmsg⟩ := h
    rw [encode, decodeAccess_write_byteOffset, if_neg hctrl, if_neg hdata, if_neg hmsg]
  | rd a => rw [encode, decodeAccess_read, byteOffset_word]

/-- Where the decoder gives an instruction, it is the one the engine performs. -/
theorem instrOf_of_decodeAccess {a : Access} {i : Instr} (h : decodeAccess a = .ok i) : instrOf a = i := by
  cases a with
  | cmd v => rw [instrOf, show decodeCmd v = .ok i from h]
  | read off => exact Except.ok.inj h
  | write off v => exact Except.ok.inj h

/-- Settles O1: the table's bits of an encoding are those of its access, and each row's access decodes to the row. -/
theorem decodeEncodeAgree : Obligations.DecodeEncodeAgree := by
  unfold Obligations.DecodeEncodeAgree
  intro i h
  have hdecode := decodeAccess_encode h
  refine ⟨?_, hdecode, instrOf_of_decodeAccess hdecode⟩
  rw [decodeTableWord, accessOfTableWord_encode, Option.bind_some, hdecode]
  rfl

/-! ## The rows and well-formedness -/

/-- The rows of R84 a word meets, in the order of the table. -/
def rowHits (v : Word) : List Bool := [isNop v, isStart v, isAbsorb v, isFinal v, isAbort v]

/-- Each row fixes OP at a value of its own, so only the row of its OP can be met. -/
theorem rowHits_eq_opField (v : Word) :
    rowHits v = [opField v == 0 && isNop v, opField v == 1 && isStart v, opField v == 2 && isAbsorb v,
      opField v == 3 && isFinal v, opField v == 4 && isAbort v] := by
  have only : ∀ {b : Bool} {op : BitVec 4}, (b = true → opField v = op) → b = (opField v == op && b) := by
    intro b op h
    cases b with
    | false => rw [Bool.and_false]
    | true => rw [h rfl, beq_self_eq_true, Bool.and_true]
  rw [rowHits, ← only opField_of_isNop, ← only opField_of_isStart, ← only opField_of_isAbsorb,
    ← only opField_of_isFinal, ← only opField_of_isAbort]

/-- The word meets some row of the opcode map. -/
def MeetsRow (v : Word) : Prop :=
  isNop v = true ∨ isStart v = true ∨ isAbsorb v = true ∨ isFinal v = true ∨ isAbort v = true

theorem count_rowHits_of_meetsRow {v : Word} (h : MeetsRow v) : (rowHits v).count true = 1 := by
  rw [rowHits_eq_opField]
  rcases h with h | h | h | h | h
  · simp [h, opField_of_isNop h]
  · simp [h, opField_of_isStart h]
  · simp [h, opField_of_isAbsorb h]
  · simp [h, opField_of_isFinal h]
  · simp [h, opField_of_isAbort h]

theorem count_rowHits_of_not_meetsRow {v : Word} (h : ¬ MeetsRow v) : (rowHits v).count true = 0 := by
  simp only [MeetsRow, not_or, Bool.not_eq_true] at h
  obtain ⟨hnop, hstart, habsorb, hfinal, habort⟩ := h
  rw [rowHits, hnop, hstart, habsorb, hfinal, habort]
  rfl

/-- The rows of R84 and the conditions of R83 describe the same words. -/
theorem wellFormedWord_iff_meetsRow (v : Word) : wellFormedWord v = true ↔ MeetsRow v := by
  refine ⟨row_of_wellFormedWord, fun h => ?_⟩
  rw [MeetsRow, isNop_iff, isStart_iff, isAbsorb_iff, isFinal_iff, isAbort_iff] at h
  rw [wellFormedWord_iff]
  rcases h with h | h | h | h | h <;> simp [h]

theorem decodeCmd_ok_iff_meetsRow (v : Word) : (∃ i, decodeCmd v = .ok i) ↔ MeetsRow v := by
  constructor
  · rintro ⟨i, hi⟩
    by_contra h
    simp only [MeetsRow, not_or] at h
    obtain ⟨hnop, hstart, habsorb, hfinal, habort⟩ := h
    rw [decodeCmd_of_no_row hnop hstart habsorb hfinal habort] at hi
    cases hi
  · rintro (h | h | h | h | h)
    · exact ⟨_, decodeCmd_of_isNop h⟩
    · exact ⟨_, decodeCmd_of_isStart h⟩
    · exact ⟨_, decodeCmd_of_isAbsorb h⟩
    · exact ⟨_, decodeCmd_of_isFinal h⟩
    · exact ⟨_, decodeCmd_of_isAbort h⟩

/-- Settles O2: a word meets one row or none; the words that meet one are the well-formed ones and those that decode. -/
theorem opcodeRowsDisjointAndComplete : Obligations.OpcodeRowsDisjointAndComplete := by
  unfold Obligations.OpcodeRowsDisjointAndComplete
  intro v
  change (rowHits v).count true ≤ 1 ∧ (wellFormedWord v = true ↔ (rowHits v).count true = 1) ∧ _
  rw [decodeCmd_ok_iff_meetsRow, wellFormedWord_iff_meetsRow]
  by_cases h : MeetsRow v
  · simp [h, count_rowHits_of_meetsRow h]
  · simp [h, count_rowHits_of_not_meetsRow h]

/-! ## Fixed words, and offsets of no alignment -/

/-- Settles O4: closed facts about the decoder. -/
theorem specWordsDecode : Obligations.SpecWordsDecode := by
  unfold Obligations.SpecWordsDecode
  exact ⟨decodeCmd_of_isNop rfl, decodeCmd_startWord 3 4, decodeCmd_startWord 5 8,
    decodeCmd_absorbWord (nb := 4) (by decide), decodeCmd_of_isFinal rfl, decodeCmd_of_isAbort rfl,
    rfl, rfl, rfl, rfl, rfl⟩

/-- The mask of R52 keeps the word offset. -/
theorem wordOffset_and_mask (off : BitVec 7) : (off &&& 0x7C).extractLsb' 2 5 = off.extractLsb' 2 5 := by
  revert off; decide

theorem descriptor_and_mask (b : Bool) (off : BitVec 7) : descriptor b (off &&& 0x7C) = descriptor b off := by
  rw [descriptor, descriptor, wordOffset_and_mask]

/-- Settles O6: the descriptor of an access has offset bits 6:2 only. -/
theorem offsetLowBitsIgnored : Obligations.OffsetLowBitsIgnored := by
  unfold Obligations.OffsetLowBitsIgnored
  intro off v s
  exact ⟨by rw [instrOf, instrOf, descriptor_and_mask], by rw [instrOf, instrOf, descriptor_and_mask]⟩

end Sys2Proof.Machine
end

section
/-! The step (00_scope.md R3, 20_memory.md R58, R63, 40_commands.md R116, 70_reset_and_hazards.md R270, R272): what it
does on each event, what it can do at all, and O7 to O12, O14 to O16. -/

namespace Sys2Proof.Machine

/-! ## A step, by the event that comes next -/

/-- The state without its next event. -/
def dropEvent (s : State) : State := { s with env := s.env.tail }

theorem dropEvent_of_cons {s : State} {e : Event} {rest : List Event} (h : s.env = e :: rest) :
    dropEvent s = { s with env := rest } := by
  rw [dropEvent, h, List.tail_cons]

theorem dropEvent_of_nil {s : State} (h : s.env = []) : dropEvent s = s := by
  rw [dropEvent, h, List.tail_nil, ← h]

theorem step_rstLow {s : State} {rest : List Event} (h : s.env = .rstLow :: rest) :
    step s = .next (resetEdge (dropEvent s)) := by
  rw [step, advance, h, dropEvent_of_cons h]

theorem step_rstHigh {s : State} {rest : List Event} (h : s.env = .rstHigh :: rest) :
    step s = .next (releaseReset (dropEvent s)) := by
  rw [step, advance, h, dropEvent_of_cons h]

/-- The environment presents nothing: its list is empty or the ENGINE is next. -/
def Quiet (s : State) : Prop := s.env = [] ∨ ∃ rest, s.env = .engine :: rest

/-- No change of `rst_n` comes next. -/
structure NoResetNext (env : List Event) : Prop where
  low : env.head? ≠ some .rstLow
  high : env.head? ≠ some .rstHigh

/-- What can come next: a change of `rst_n`, an access, or neither. -/
theorem env_cases (s : State) :
    (∃ rest, s.env = .rstLow :: rest) ∨ (∃ rest, s.env = .rstHigh :: rest) ∨
      NoResetNext s.env ∧ ((∃ a rest, s.env = .access a :: rest) ∨ Quiet s) := by
  unfold Quiet
  rcases s.env with _ | ⟨_ | _ | _ | _, rest⟩
  · exact .inr (.inr ⟨⟨nofun, nofun⟩, .inr (.inl rfl)⟩)
  · exact .inr (.inr ⟨⟨nofun, nofun⟩, .inl ⟨_, _, rfl⟩⟩)
  · exact .inr (.inr ⟨⟨nofun, nofun⟩, .inr (.inr ⟨_, rfl⟩)⟩)
  · exact .inl ⟨_, rfl⟩
  · exact .inr (.inl ⟨_, rfl⟩)

theorem step_access_unapplied {s : State} {a : Access} {rest : List Event} (hrst : s.rst = .unapplied)
    (h : s.env = .access a :: rest) : step s = .fault .accessBeforeReset := by
  simp only [step, advance, advanceUnapplied, h, hrst]

theorem step_quiet_unapplied {s : State} (hrst : s.rst = .unapplied) (h : Quiet s) :
    step s = .next (dropEvent s) := by
  rcases h with h | ⟨rest, h⟩
  · rw [dropEvent_of_nil h]
    simp only [step, advance, advanceUnapplied, h, hrst]
  · rw [dropEvent_of_cons h]
    simp only [step, advance, advanceUnapplied, h, hrst]

theorem step_access_asserted {s : State} {a : Access} {rest : List Event} (hrst : s.rst = .asserted)
    (h : s.env = .access a :: rest) : step s = .next (accessInReset a (resetEdge (dropEvent s))) := by
  rw [dropEvent_of_cons h]
  simp only [step, advance, advanceInReset, h, hrst]

theorem step_quiet_asserted {s : State} (hrst : s.rst = .asserted) (h : Quiet s) :
    step s = .next (resetEdge (dropEvent s)) := by
  rcases h with h | ⟨rest, h⟩
  · rw [dropEvent_of_nil h]
    simp only [step, advance, advanceInReset, h, hrst]
  · rw [dropEvent_of_cons h]
    simp only [step, advance, advanceInReset, h, hrst]

/-- With the engine running and no write held, the step performs the next access (R63). -/
theorem step_access_released {s : State} {a : Access} {rest : List Event} (hrst : s.rst = .released)
    (hheld : s.held = none) (h : s.env = .access a :: rest) : step s = exec (instrOf a) (dropEvent s) := by
  rw [step_running hrst (by simp [h]) (by simp [h]), dropEvent_of_cons h]
  simp only [advanceRunning, h, hheld]

theorem step_quiet_released {s : State} (hrst : s.rst = .released) (hheld : s.held = none) (h : Quiet s) :
    step s = .next (engineTurn (dropEvent s)) := by
  rcases h with h | ⟨rest, h⟩
  · rw [step_running hrst (by simp [h]) (by simp [h]), dropEvent_of_nil h]
    simp only [advanceRunning, h, hheld]
  · rw [step_running hrst (by simp [h]) (by simp [h]), dropEvent_of_cons h]
    simp only [advanceRunning, h, hheld]

/-- A held write waits for the ENGINE while BUSY = 1 and is performed after that (R58). -/
theorem step_held {s : State} {w : HeldWrite} (hrst : s.rst = .released) (henv : NoResetNext s.env)
    (hheld : s.held = some w) :
    step s = if s.busy then .next (engineTurn s) else exec (heldInstr w) { s with held := none } := by
  rw [step_running hrst henv.low henv.high, advanceRunning, hheld]

/-! ## The instruction a step performs -/

theorem nextInstr_access {s : State} {a : Access} {rest : List Event} (hrst : s.rst = .released)
    (hheld : s.held = none) (h : s.env = .access a :: rest) : nextInstr s = some (instrOf a) := by
  simp only [nextInstr, hrst, hheld, h, ne_eq, not_true_eq_false, if_false]

theorem nextInstr_held {s : State} {w : HeldWrite} (hrst : s.rst = .released) (henv : NoResetNext s.env)
    (hheld : s.held = some w) (hbusy : s.busy = false) :
    nextInstr s = some (heldInstr w) := by
  obtain ⟨hlow, hhigh⟩ := henv
  rw [nextInstr, if_neg (not_not_intro hrst), hheld, hbusy]
  rcases he : s.env with _ | ⟨_ | _ | _ | _, rest⟩ <;> simp [he] at hlow hhigh ⊢

/-! ## What a step can do -/

/-- Every way a step can lead from `s` to `t`, with the condition it is taken on. -/
inductive Moves (s : State) : State → Prop where
  /-- A rising edge with `rst_n` = 0. -/
  | reset (hreset : s.rst = .asserted ∨ ∃ rest, s.env = .rstLow :: rest) : Moves s (resetEdge (dropEvent s))
  /-- An access while `rst_n` = 0. -/
  | resetAccess (a : Access) (hrst : s.rst = .asserted) (henv : s.env ≠ []) :
      Moves s (accessInReset a (resetEdge (dropEvent s)))
  /-- `rst_n` is 1 again. -/
  | release (henv : s.env ≠ []) : Moves s (releaseReset (dropEvent s))
  /-- Before the first reset nothing happens. -/
  | unapplied (hrst : s.rst = .unapplied) : Moves s (dropEvent s)
  /-- The ENGINE's turn, at the environment's word or with nothing else left. -/
  | engine (hrst : s.rst = .released) (hheld : s.held = none) (hquiet : Quiet s) : Moves s (engineTurn (dropEvent s))
  /-- The ENGINE's turn, while a write is held. -/
  | wait (w : HeldWrite) (hrst : s.rst = .released) (hheld : s.held = some w) (hbusy : s.busy = true) :
      Moves s (engineTurn s)
  /-- The held write, once BUSY has fallen. -/
  | resume (w : HeldWrite) (t : State) (hrst : s.rst = .released) (hheld : s.held = some w) (hbusy : s.busy = false)
      (hnext : nextInstr s = some (heldInstr w)) (hexec : exec (heldInstr w) { s with held := none } = .next t) :
      Moves s t
  /-- The next access. -/
  | access (a : Access) (t : State) (hrst : s.rst = .released) (hheld : s.held = none) (henv : s.env ≠ [])
      (hnext : nextInstr s = some (instrOf a)) (hexec : exec (instrOf a) (dropEvent s) = .next t) : Moves s t

/-- The steps of a running engine that is not reset. -/
theorem moves_of_running {s t : State} (hrst : s.rst = .released) (henv : NoResetNext s.env)
    (hnext : (∃ a rest, s.env = .access a :: rest) ∨ Quiet s) (h : step s = .next t) : Moves s t := by
  cases hheld : s.held with
  | some w =>
    rw [step_held hrst henv hheld] at h
    split at h
    · next hbusy => cases h; exact .wait w hrst hheld hbusy
    · next hbusy =>
      have hbusy : s.busy = false := Bool.eq_false_iff.2 hbusy
      exact .resume w t hrst hheld hbusy (nextInstr_held hrst henv hheld hbusy) h
  | none =>
    rcases hnext with ⟨a, rest, he⟩ | hquiet
    · rw [step_access_released hrst hheld he] at h
      exact .access a t hrst hheld (by simp [he]) (nextInstr_access hrst hheld he) h
    · rw [step_quiet_released hrst hheld hquiet] at h
      cases h
      exact .engine hrst hheld hquiet

/-- The inversion of `step`. -/
theorem moves_of_step {s t : State} (h : step s = .next t) : Moves s t := by
  rcases env_cases s with ⟨rest, he⟩ | ⟨rest, he⟩ | ⟨henv, hnext⟩
  · rw [step_rstLow he] at h
    cases h
    exact .reset (.inr ⟨rest, he⟩)
  · rw [step_rstHigh he] at h
    cases h
    exact .release (by simp [he])
  cases hrst : s.rst with
  | released => exact moves_of_running hrst henv hnext h
  | unapplied =>
    rcases hnext with ⟨a, rest, he⟩ | hquiet
    · rw [step_access_unapplied hrst he] at h
      cases h
    · rw [step_quiet_unapplied hrst hquiet] at h
      cases h
      exact .unapplied hrst
  | asserted =>
    rcases hnext with ⟨a, rest, he⟩ | hquiet
    · rw [step_access_asserted hrst he] at h
      cases h
      exact .resetAccess a hrst (by simp [he])
    · rw [step_quiet_asserted hrst hquiet] at h
      cases h
      exact .reset (.inl hrst)

/-! ## The step's own statements -/

/-- Settles O7: the decoder's instruction is the one the step performs. -/
theorem stepRunsDecodedAccess : Obligations.StepRunsDecodedAccess := by
  unfold Obligations.StepRunsDecodedAccess
  intro s a rest i hrst hheld he hi
  rw [step_access_released hrst hheld he, instrOf_of_decodeAccess hi, dropEvent_of_cons he]

/-- A command line of no command is the CTRL write of its word (30_encoding.md R87). -/
theorem instrOf_cmd_illFormed {v : Word} (h : wellFormedWord v = false) : instrOf (.cmd v) = .wrCtrl v := by
  cases hd : decodeCmd v with
  | ok i =>
    have hrow := (decodeCmd_ok_iff_meetsRow v).1 ⟨i, hd⟩
    rw [(wellFormedWord_iff_meetsRow v).2 hrow] at h
    cases h
  | error r => rw [instrOf, hd]

/-- Settles O8: an ill-formed word decodes to no command, so the access is its CTRL write. -/
theorem stepRunsIllegalWordAsCtrlWrite : Obligations.StepRunsIllegalWordAsCtrlWrite := by
  unfold Obligations.StepRunsIllegalWordAsCtrlWrite
  intro s v rest hrst hheld he hill
  rw [step_access_released hrst hheld he, instrOf_cmd_illFormed hill, dropEvent_of_cons he]

/-- A command line is the CTRL write of its word, whatever the word (R87). -/
theorem exec_instrOf_cmd (v : Word) (s : State) : exec (instrOf (.cmd v)) s = exec (.wrCtrl v) s := by
  cases hwf : wellFormedWord v with
  | true =>
    obtain ⟨i, hdecode, hexec, -⟩ := exec_wrCtrl_of_wellFormedWord hwf s
    rw [hexec, instrOf_of_decodeAccess (a := .cmd v) hdecode]
  | false => rw [instrOf_cmd_illFormed hwf]

/-- The access `a` is a CTRL or MSG write, with the offset and the value that the bus holds while it stalls (R58). -/
def IsStallingWrite (a : Access) (w : HeldWrite) : Prop :=
  a = .cmd w.value ∧ w.offset = 0 ∨
    ∃ off, a = .write off w.value ∧ w.offset = off.extractLsb' 2 5 ∧ (w.offset = 0 ∨ w.offset = 4)

theorem IsStallingWrite.offset {a : Access} {w : HeldWrite} (h : IsStallingWrite a w) :
    w.offset = 0 ∨ w.offset = 4 := by
  rcases h with ⟨-, h⟩ | ⟨-, -, -, h⟩
  · exact .inl h
  · exact h

theorem heldInstr_ctrl {w : HeldWrite} (h : w.offset = 0) : heldInstr w = .wrCtrl w.value := by
  rw [heldInstr, decodeBus_write, if_pos h]

theorem heldInstr_msg {w : HeldWrite} (h : w.offset = 4) : heldInstr w = .wrMsg w.value := by
  rw [heldInstr, decodeBus_write, h]
  rfl

/-- What is held is the write that was presented. -/
theorem IsStallingWrite.exec_heldInstr {a : Access} {w : HeldWrite} (h : IsStallingWrite a w) (s : State) :
    exec (instrOf a) s = exec (heldInstr w) s := by
  rcases h with ⟨rfl, ho⟩ | ⟨off, rfl, ho, -⟩
  · rw [exec_instrOf_cmd, heldInstr_ctrl ho]
  · rw [heldInstr, ho, instrOf, descriptor_write]

theorem exec_heldInstr_busy {w : HeldWrite} (h : w.offset = 0 ∨ w.offset = 4) {s : State} (hbusy : s.busy = true) :
    exec (heldInstr w) s = .next { s with held := some w } := by
  obtain ⟨o, v⟩ := w
  rcases h with rfl | rfl
  · rw [heldInstr_ctrl rfl, exec_wrCtrl, whenAccepted_busy hbusy]
    rfl
  · rw [heldInstr_msg rfl, exec_wrMsg, whenAccepted_busy hbusy]
    rfl

/-- Settles O9: presented on the busy engine the write is held, the step after is the ENGINE's, and the one after that
performs the held write, which is the presented one. -/
theorem stalledWritePerformedAfterEngine : Obligations.StalledWritePerformedAfterEngine := by
  unfold Obligations.StalledWritePerformedAfterEngine
  intro s a rest w hrst hheld hbusy hwork he hwrite hlow hhigh
  have hstall : IsStallingWrite a w := hwrite
  have henv : NoResetNext rest := ⟨hlow, hhigh⟩
  refine ⟨_, _, ?present, rfl, ?engine, rfl, ?perform⟩
  case present =>
    rw [step_access_released hrst hheld he, dropEvent_of_cons he, hstall.exec_heldInstr,
      exec_heldInstr_busy hstall.offset (s := { s with env := rest }) hbusy]
  case engine =>
    rw [step_held (s := { s with env := rest, held := some w }) hrst henv rfl, if_pos hbusy,
      engineTurn_running (by exact hwork)]
    rfl
  case perform =>
    rw [step_held (s := { s with env := rest, held := some w, work := .none, busy := false }) hrst henv rfl,
      if_neg Bool.false_ne_true, hstall.exec_heldInstr]
    simp only [hheld]

/-- Settles O10: with no write held, the ENGINE takes its turn when the environment has it next and when nothing is
left. -/
theorem engineStepEndsTheWork : Obligations.EngineStepEndsTheWork := by
  unfold Obligations.EngineStepEndsTheWork
  intro s hrst hheld hwork
  refine ⟨fun he => ?_, fun rest he => ?_⟩
  · rw [step_quiet_released hrst hheld (.inl he), dropEvent_of_nil he, engineTurn_running hwork, engineStep]
  · rw [step_quiet_released hrst hheld (.inr ⟨rest, he⟩), engineTurn_running (s := dropEvent s) hwork,
      dropEvent_of_cons he, engineStep]

/-- Settles O11: the ENGINE's turn without work is empty. -/
theorem idleEngineHoldsItsState : Obligations.IdleEngineHoldsItsState := by
  unfold Obligations.IdleEngineHoldsItsState
  intro s hrst hheld hwork he
  rw [step_quiet_released hrst hheld (.inl he), dropEvent_of_nil he, engineTurn_none hwork]

/-- Settles O12: every case of the step but the access before the first reset answers a next state, and so does every
instruction. -/
theorem noStopAfterReset : Obligations.NoStopAfterReset := by
  unfold Obligations.NoStopAfterReset
  intro s hrst
  rcases env_cases s with ⟨rest, he⟩ | ⟨rest, he⟩ | ⟨henv, hnext⟩
  · exact ⟨_, step_rstLow he⟩
  · exact ⟨_, step_rstHigh he⟩
  cases hrst' : s.rst with
  | unapplied => exact absurd hrst' hrst
  | asserted =>
    rcases hnext with ⟨a, rest, he⟩ | hquiet
    · exact ⟨_, step_access_asserted hrst' he⟩
    · exact ⟨_, step_quiet_asserted hrst' hquiet⟩
  | released =>
    cases hheld : s.held with
    | some w =>
      rw [step_held hrst' henv hheld]
      split
      · exact ⟨_, rfl⟩
      · exact exec_next _ _
    | none =>
      rcases hnext with ⟨a, rest, he⟩ | hquiet
      · rw [step_access_released hrst' hheld he]
        exact exec_next _ _
      · exact ⟨_, step_quiet_released hrst' hheld hquiet⟩

/-- Settles O14: the edge is taken before anything else, and writes every field but the three of the model's own. -/
theorem resetEdgeFromEveryState : Obligations.ResetEdgeFromEveryState := by
  unfold Obligations.ResetEdgeFromEveryState
  intro s rest he
  rw [step_rstLow he, dropEvent_of_cons he, resetEdge]

/-- Settles O15: the access meets the reset edge of its step; only a read is answered, with 0. -/
theorem accessDuringReset : Obligations.AccessDuringReset := by
  unfold Obligations.AccessDuringReset
  intro s a rest hrst he
  rw [step_access_asserted hrst he, dropEvent_of_cons he, accessInReset]
  split <;> rfl

/-- Settles O16: the time before the first reset gives the host no step (R272). -/
theorem accessBeforeFirstResetIsStuck : Obligations.AccessBeforeFirstResetIsStuck := by
  unfold Obligations.AccessBeforeFirstResetIsStuck
  intro s a rest hrst he
  exact step_access_unapplied hrst he

end Sys2Proof.Machine
end

section
/-! The invariant (10_state.md sections 1 to 3, 20_memory.md R58): every shared update keeps it, so every step does, and
O48 and O49. -/

namespace Sys2Proof.Machine

/-! ## The shared updates keep the invariant -/

/-- Settles O48: the state of R40 is clear, in IDLE, with the model's sequencer at (1, 0) (log 3). -/
theorem resetMeetsInvariant : Obligations.ResetMeetsInvariant := by
  unfold Obligations.ResetMeetsInvariant
  exact
    { blkWf := Memory.reset_wf.1
      blkRange := Memory.reset_wf.2
      busyIffWork := by decide
      busyPhase := by decide
      errIffFailed := by decide
      cfgClear := by decide
      cfgSupported := by decide
      digestClear := fun _ => rfl
      digestHigh := by decide
      sessionClear := fun _ => ⟨rfl, rfl, rfl⟩
      countBytes := rfl
      heldStalls := nofun
      seqRange := by decide }

/-- What the environment has seen and will do, and `rst_n`, do not enter the invariant. -/
theorem Inv.withEnvironment {s : State} (h : Inv s) (rst : ResetLine) (reads : List Word) (draws : Nat)
    (env : List Event) : Inv { s with rst := rst, reads := reads, draws := draws, env := env } :=
  { h with }

theorem Inv.resetEdge (s : State) : Inv (resetEdge s) :=
  resetMeetsInvariant.withEnvironment .asserted s.reads s.draws s.env

theorem Inv.returnRead {s : State} (h : Inv s) (v : Word) : Inv (returnRead v s) := { h with }

theorem Inv.accessInReset {s : State} (h : Inv s) (a : Access) : Inv (accessInReset a s) := by
  unfold Machine.accessInReset
  split
  · exact h.returnRead 0
  · exact h

theorem Inv.dropEvent {s : State} (h : Inv s) : Inv (dropEvent s) := { h with }

theorem Inv.releaseReset {s : State} (h : Inv s) : Inv (releaseReset s) := by
  unfold Machine.releaseReset
  split
  · exact { h with }
  · exact h

theorem Inv.release_held {s : State} (h : Inv s) : Inv { s with held := none } := { h with heldStalls := nofun }

theorem Inv.withData {s : State} (h : Inv s) (v : Word) : Inv (withData v s) := { h with }

theorem Inv.busRead {s : State} (h : Inv s) (a : BitVec 5) : Inv (busRead a s) := by
  unfold Machine.busRead
  split
  · exact { h with }
  · exact h.returnRead _

theorem Inv.hold {s : State} (h : Inv s) {off : BitVec 5} (ho : off = ctrlOffset ∨ off = msgOffset) (v : Word) :
    Inv (hold off v s) :=
  { h with heldStalls := fun w hw => by cases hw; exact ho }

theorem Inv.engineTurn {s : State} (h : Inv s) : Inv (engineTurn s) := by
  unfold Machine.engineTurn
  split
  · exact { h with busyIffWork := by simp, busyPhase := by simp }
  · exact h

/-! ## The effects of commands keep the invariant -/

theorem zeroWords8_getElem (i : Fin 8) : zeroWords8[i.val] = 0 := by simp [zeroWords8]

theorem err_fail_ne_none {c : ErrCode} (hc : c ≠ .none) (s : State) : (fail c s).err ≠ .none := by
  rw [fail_err]
  split
  · exact hc
  · assumption

/-- The error entry keeps the invariant: on an idle engine FAILED is entered with an error and everything cleared. -/
theorem Inv.fail {s : State} (h : Inv s) {c : ErrCode} (hc : c ≠ .none) (hidle : s.busy = false) : Inv (fail c s) :=
  { h with
    blkWf := ⟨.nil, nofun⟩
    blkRange := nofun
    busyPhase := fun hb => by simp [hidle] at hb
    errIffFailed := iff_of_true (err_fail_ne_none hc s) rfl
    cfgClear := fun _ => ⟨rfl, rfl⟩
    cfgSupported := by simp
    digestClear := fun _ => rfl
    digestHigh := fun i _ => zeroWords8_getElem i
    sessionClear := fun _ => ⟨rfl, rfl, rfl⟩
    countBytes := rfl }

theorem Inv.abortEffect {s : State} (h : Inv s) (hidle : s.busy = false) : Inv (abortEffect s) :=
  { h with
    blkWf := ⟨.nil, nofun⟩
    blkRange := nofun
    busyPhase := fun hb => by simp [hidle] at hb
    errIffFailed := by simp
    cfgClear := fun _ => ⟨rfl, rfl⟩
    cfgSupported := by simp
    digestClear := fun _ => rfl
    digestHigh := fun i _ => zeroWords8_getElem i
    sessionClear := fun _ => ⟨rfl, rfl, rfl⟩
    countBytes := rfl }

theorem Inv.startEffect {s : State} (h : Inv s) (p : BitVec 3) (w : BitVec 4) (hidle : s.busy = false) :
    Inv (startEffect p w s) := by
  unfold Machine.startEffect
  split
  · next hpair =>
    exact
      { h with
        blkWf := ⟨.nil, nofun⟩
        blkRange := nofun
        busyPhase := fun _ => .inl rfl
        errIffFailed := by simp
        cfgClear := by simp
        cfgSupported := fun _ => hpair
        digestClear := fun _ => rfl
        digestHigh := fun i _ => zeroWords8_getElem i
        sessionClear := fun hp => absurd rfl hp
        countBytes := rfl }
  · exact { h.fail (c := .cfg) (by decide) hidle with errIffFailed := iff_of_true (by simp) rfl }

/-- A supported configuration has 3 to 5 passes (40_commands.md R105). -/
theorem passes_of_supported : ∀ {p : BitVec 3} {w : BitVec 4}, supported p w = true → 1 ≤ p.toNat ∧ p.toNat ≤ 5 := by
  decide

/-- Absorbed bytes keep the invariant of an open session: a compression sets BUSY with WORK and leaves the sequencer at
the configured pass count. -/
theorem Inv.foldl_absorbByte {s : State} (h : Inv s) (hphase : s.phase = .active) (bs : List Byte) :
    Inv (bs.foldl absorbByte s) where
  blkWf := (foldl_absorbByte_blk bs h.blkWf h.blkRange).1
  blkRange := (foldl_absorbByte_blk bs h.blkWf h.blkRange).2
  busyIffWork := by
    rcases foldl_absorbByte_work bs s with ⟨hb, hw, -⟩ | ⟨hb, hw, -⟩
    · rw [hb, hw]; exact h.busyIffWork
    · rw [hb, hw]; exact iff_of_true rfl rfl
  busyPhase := fun _ => .inl ((foldl_absorbByte_phase bs s).trans hphase)
  errIffFailed := by simpa using h.errIffFailed
  cfgClear := by simpa using h.cfgClear
  cfgSupported := by simpa using h.cfgSupported
  digestClear := by simpa using h.digestClear
  digestHigh := by simpa using h.digestHigh
  sessionClear := fun hp => absurd ((foldl_absorbByte_phase bs s).trans hphase) hp
  countBytes := by
    have hcount := h.countBytes
    rw [foldl_absorbByte_count, BitVec.toNat_add, BitVec.toNat_ofNat]
    omega
  heldStalls := by simpa using h.heldStalls
  seqRange := by
    rcases foldl_absorbByte_work bs s with ⟨-, -, hr⟩ | ⟨-, -, hr⟩
    · rw [hr]; exact h.seqRange
    · rw [hr]; exact passes_of_supported (h.cfgSupported (.inl hphase))

theorem Inv.absorbBytes {s : State} (h : Inv s) (bs : List Byte) (hidle : s.busy = false) :
    Inv (absorbBytes bs s) := by
  unfold Machine.absorbBytes
  split_ifs with hphase
  · exact h.fail (by decide) hidle
  · exact h.fail (by decide) hidle
  · exact h.foldl_absorbByte (not_not.1 hphase) bs

/-- FINAL keeps the invariant: it absorbs the padding and the tail in ACTIVE, then enters DONE with the session clear and
with DIGEST cut to the configured width. -/
theorem Inv.finalEffect {s : State} (h : Inv s) (hidle : s.busy = false) : Inv (finalEffect s) := by
  by_cases hphase : s.phase = .active
  · rw [finalEffect_of_active hphase]
    have hpad : Inv (padAndTail s) := h.foldl_absorbByte hphase _
    have hpadPhase : (padAndTail s).phase = .active := (foldl_absorbByte_phase _ s).trans hphase
    exact
      { hpad with
        blkWf := ⟨.nil, nofun⟩
        blkRange := nofun
        busyIffWork := iff_of_true rfl rfl
        busyPhase := fun _ => .inr rfl
        errIffFailed := by simpa [hpadPhase] using hpad.errIffFailed
        cfgClear := by simp
        cfgSupported := fun _ => hpad.cfgSupported (.inl hpadPhase)
        digestClear := fun hp => absurd rfl hp
        digestHigh := fun i hi => by
          have hmux := wordAt_digestMux (tailor (padAndTail s).fp s.cfgWords) s.cfgWords i.isLt
          rwa [if_neg (by simpa using hi), wordAt_of_lt _ _ i.isLt] at hmux
        sessionClear := fun _ => ⟨rfl, rfl, rfl⟩
        countBytes := rfl }
  · rw [Machine.finalEffect, if_pos hphase]
    exact h.fail (by decide) hidle

/-! ## Every instruction and every step keep the invariant -/

theorem Inv.exec {s t : State} (h : Inv s) {i : Instr} (hexec : exec i s = .next t) : Inv t :=
  exec_cases hexec h
    (data := h.withData)
    (read := h.busRead)
    (stalled := fun _ v _ ho => h.hold ho v)
    (failed := fun _ hc hidle => h.fail hc hidle)
    (started := fun p w hidle => h.startEffect p w hidle)
    (absorbed := fun bs hidle => h.absorbBytes bs hidle)
    (finished := h.finalEffect)
    (aborted := h.abortEffect)

/-- Settles O49: each move of a step is a shared update, or an instruction on such an update. -/
theorem stepKeepsInvariant : Obligations.StepKeepsInvariant := by
  unfold Obligations.StepKeepsInvariant
  intro s t h hstep
  cases moves_of_step hstep with
  | reset => exact .resetEdge _
  | resetAccess => exact (Inv.resetEdge _).accessInReset _
  | release => exact h.dropEvent.releaseReset
  | unapplied => exact h.dropEvent
  | engine => exact h.dropEvent.engineTurn
  | wait => exact h.engineTurn
  | resume w _ _ _ _ _ hexec => exact h.release_held.exec hexec
  | access a _ _ _ _ _ hexec => exact h.dropEvent.exec hexec

end Sys2Proof.Machine
end

section
/-! What every step leaves unchanged (DATA, 10_state.md R27; FAILED, 60_exceptions.md R249), and O50 and O51. -/

namespace Sys2Proof.Machine

open Sys2Proof.Certificates

/-! ## DATA -/

theorem whenAccepted_data {effect : State → State} {s : State} (h : (effect s).data = s.data) (off : BitVec 5)
    (v : Word) : (whenAccepted off v effect s).data = s.data := by
  unfold whenAccepted
  split
  · rfl
  · exact h

theorem startEffect_data (p : BitVec 3) (w : BitVec 4) (s : State) : (startEffect p w s).data = s.data := by
  unfold startEffect
  split <;> rfl

theorem absorbEffect_data (nb : BitVec 3) (s : State) : (absorbEffect nb s).data = s.data := by
  unfold absorbEffect
  split
  · exact absorbBytes_data _ s
  · rfl

theorem finalEffect_data (s : State) : (finalEffect s).data = s.data := by
  by_cases hphase : s.phase = .active
  · rw [finalEffect_of_active hphase]
    exact foldl_absorbByte_data _ s
  · rw [finalEffect, if_pos hphase]
    rfl

theorem ctrlEffect_data (v : Word) (s : State) : (ctrlEffect v s).data = s.data := by
  unfold ctrlEffect
  split_ifs
  · rfl
  · rfl
  · exact startEffect_data _ _ s
  · exact absorbEffect_data _ s
  · exact finalEffect_data s
  · rfl

theorem busRead_keeps_data (a : BitVec 5) (s : State) : (busRead a s).data = s.data := by
  unfold busRead
  split <;> rfl

/-- Only WR_DATA writes DATA (R109). -/
theorem exec_data {i : Instr} {s t : State} (h : exec i s = .next t) : t.data = s.data ∨ i = .wrData t.data := by
  cases i <;> cases h
  case wrData => exact .inr rfl
  case nop => exact .inl (whenAccepted_data rfl _ _)
  case start => exact .inl (whenAccepted_data (startEffect_data _ _ s) _ _)
  case absorb => exact .inl (whenAccepted_data (absorbEffect_data _ s) _ _)
  case final => exact .inl (whenAccepted_data (finalEffect_data s) _ _)
  case abort => exact .inl (whenAccepted_data rfl _ _)
  case wrCtrl => exact .inl (whenAccepted_data (ctrlEffect_data _ s) _ _)
  case wrMsg => exact .inl (whenAccepted_data (absorbBytes_data _ s) _ _)
  case wrIgnored => exact .inl rfl
  case rd => exact .inl (busRead_keeps_data _ s)

theorem releaseReset_keeps (s : State) :
    (releaseReset s).data = s.data ∧ (releaseReset s).phase = s.phase ∧ (releaseReset s).err = s.err ∧
      (releaseReset s).env = s.env ∧ (releaseReset s).reads = s.reads := by
  unfold releaseReset
  split <;> exact ⟨rfl, rfl, rfl, rfl, rfl⟩

/-- Settles O51: of the moves of a step only a reset and WR_DATA write DATA. -/
theorem dataChangesOnlyByItsWrite : Obligations.DataChangesOnlyByItsWrite := by
  unfold Obligations.DataChangesOnlyByItsWrite
  intro s t hstep hchanged
  cases moves_of_step hstep with
  | reset hreset => exact hreset.imp_right .inl
  | resetAccess _ hrst => exact .inl hrst
  | release => exact absurd (releaseReset_keeps _).1 hchanged
  | unapplied => exact absurd rfl hchanged
  | engine => exact absurd (engineTurn_data _) hchanged
  | wait => exact absurd (engineTurn_data _) hchanged
  | resume w _ _ _ _ hnext hexec =>
    exact .inr (.inr ((exec_data hexec).resolve_left hchanged ▸ hnext))
  | access a _ _ _ _ hnext hexec =>
    exact .inr (.inr ((exec_data hexec).resolve_left hchanged ▸ hnext))

/-! ## FAILED -/

/-- The state is FAILED and holds the error `e`. -/
def FailedWith (e : ErrCode) (s : State) : Prop := s.phase = .failed ∧ s.err = e

/-- The error entry keeps the first error (R247). -/
theorem FailedWith.fail {e : ErrCode} {s : State} (h : FailedWith e s) (he : e ≠ .none) (c : ErrCode) :
    FailedWith e (fail c s) := by
  obtain ⟨-, herr⟩ := h
  exact ⟨rfl, by rw [fail_err, herr, if_neg he]⟩

theorem FailedWith.whenAccepted {e : ErrCode} {s : State} (h : FailedWith e s) {effect : State → State}
    (heffect : FailedWith e (effect s)) (off : BitVec 5) (v : Word) : FailedWith e (whenAccepted off v effect s) := by
  unfold Machine.whenAccepted
  split
  · exact h
  · exact heffect

theorem FailedWith.absorbBytes {e : ErrCode} {s : State} (h : FailedWith e s) (he : e ≠ .none) (bs : List Byte) :
    FailedWith e (absorbBytes bs s) := by
  rw [absorbBytes_seq (by simp [h.1])]
  exact h.fail he .seq

theorem FailedWith.absorbEffect {e : ErrCode} {s : State} (h : FailedWith e s) (he : e ≠ .none) (nb : BitVec 3) :
    FailedWith e (absorbEffect nb s) := by
  unfold Machine.absorbEffect
  split
  · exact h.absorbBytes he _
  · exact h.fail he .illegal

theorem FailedWith.finalEffect {e : ErrCode} {s : State} (h : FailedWith e s) (he : e ≠ .none) :
    FailedWith e (finalEffect s) := by
  rw [Machine.finalEffect, if_pos (by simp [h.1])]
  exact h.fail he .seq

/-- A CTRL write of neither a START nor an ABORT: ILLEGAL, NOP, ABSORB or FINAL. -/
theorem FailedWith.ctrlEffect {e : ErrCode} {s : State} (h : FailedWith e s) (he : e ≠ .none) {v : Word}
    (hstart : isStart v = false) (habort : isAbort v = false) : FailedWith e (ctrlEffect v s) := by
  cases hwf : wellFormedWord v with
  | false =>
    rw [ctrlEffect_illegal hwf]
    exact h.fail he .illegal
  | true =>
    rcases row_of_wellFormedWord hwf with hrow | hrow | hrow | hrow | hrow
    · rw [(rowHit_exact 0x00000000 v).1 hrow, ctrlEffect_nop]
      exact h
    · rw [hstart] at hrow
      cases hrow
    · rw [ctrlEffect_absorb hrow]
      exact h.absorbEffect he _
    · rw [(rowHit_exact 0x00000003 v).1 hrow, ctrlEffect_final]
      exact h.finalEffect he
    · rw [habort] at hrow
      cases hrow

theorem FailedWith.busRead {e : ErrCode} {s : State} (h : FailedWith e s) (a : BitVec 5) :
    FailedWith e (busRead a s) := by
  unfold Machine.busRead
  split <;> exact h

/-- Every instruction but START and ABORT leaves FAILED and its error as they are (R249). -/
theorem FailedWith.exec {e : ErrCode} {s t : State} (h : FailedWith e s) (he : e ≠ .none) {i : Instr}
    (hi : leavesFailed i = false) (hexec : exec i s = .next t) : FailedWith e t := by
  cases i <;> cases hexec
  case start => cases hi
  case abort => cases hi
  case nop => exact h.whenAccepted h _ _
  case absorb => exact h.whenAccepted (h.absorbEffect he _) _ _
  case final => exact h.whenAccepted (h.finalEffect he) _ _
  case wrCtrl =>
    obtain ⟨hstart, habort⟩ := Bool.or_eq_false_iff.1 hi
    exact h.whenAccepted (h.ctrlEffect he hstart habort) _ _
  case wrData => exact h
  case wrMsg => exact h.whenAccepted (h.absorbBytes he _) _ _
  case wrIgnored => exact h
  case rd => exact h.busRead _

/-- An instruction after which FAILED has been left, or ERR has changed there, is START, ABORT or one of their words. -/
theorem leavesFailed_of_exec {i : Instr} {s t : State} (h : FailedWith s.err s) (he : s.err ≠ .none)
    (hexec : exec i s = .next t) (hleft : t.phase ≠ .failed ∨ t.err ≠ s.err) : leavesFailed i = true := by
  by_contra hi
  obtain ⟨hphase, herr⟩ := h.exec he (Bool.eq_false_iff.2 hi) hexec
  exact hleft.elim (absurd hphase) (absurd herr)

/-- Settles O50: the moves of a step that perform no instruction are a reset or keep PHASE and ERR. -/
theorem failedLeftOnlyByStartAbortReset : Obligations.FailedLeftOnlyByStartAbortReset := by
  unfold Obligations.FailedLeftOnlyByStartAbortReset
  intro s t hphase herr hstep hleft
  have kept : FailedWith s.err t → False := fun ⟨hp, he⟩ => hleft.elim (absurd hp) (absurd he)
  have hfailed : FailedWith s.err s := ⟨hphase, rfl⟩
  cases moves_of_step hstep with
  | reset hreset => exact hreset.imp_right .inl
  | resetAccess _ hrst => exact .inl hrst
  | release =>
    obtain ⟨-, hp, he, -⟩ := releaseReset_keeps (dropEvent s)
    exact (kept ⟨hp.trans hphase, he⟩).elim
  | unapplied => exact (kept hfailed).elim
  | engine => exact (kept ⟨(engineTurn_phase _).trans hphase, engineTurn_err _⟩).elim
  | wait => exact (kept ⟨(engineTurn_phase _).trans hphase, engineTurn_err _⟩).elim
  | resume w _ _ _ _ hnext hexec =>
    exact .inr (.inr ⟨_, hnext, leavesFailed_of_exec (s := { s with held := none }) hfailed herr hexec hleft⟩)
  | access a _ _ _ _ hnext hexec =>
    exact .inr (.inr ⟨_, hnext, leavesFailed_of_exec (s := dropEvent s) hfailed herr hexec hleft⟩)

end Sys2Proof.Machine
end

section
/-! Runs (70_reset_and_hazards.md R279): a bound on the steps left that every step of a run lowers, and O54. -/

namespace Sys2Proof.Machine

/-! ## How many steps a run has left -/

/-- Four steps for each event, two for a held write (the ENGINE's, then its own), one for pending work. -/
def stepsLeft (s : State) : Nat := 4 * s.env.length + 2 * s.held.toList.length + s.busy.toNat

theorem length_toList_le (h : Option HeldWrite) : h.toList.length ≤ 1 := by
  cases h with
  | none => exact Nat.zero_le 1
  | some w => exact le_refl 1

theorem stepsLeft_le (s : State) : stepsLeft s ≤ 4 * s.env.length + 3 := by
  have hheld := length_toList_le s.held
  have hbusy := s.busy.toNat_le
  unfold stepsLeft
  omega

/-- An event taken pays for the write it may leave held and for the work it may start. -/
theorem stepsLeft_lt_of_event {s t : State} (henv : s.env ≠ []) (ht : t.env = s.env.tail) :
    stepsLeft t < stepsLeft s := by
  have hpos : 0 < s.env.length := List.length_pos_iff.2 henv
  have hle := stepsLeft_le t
  rw [ht, List.length_tail] at hle
  have hs : 4 * s.env.length ≤ stepsLeft s := by unfold stepsLeft; omega
  omega

theorem stepsLeft_of_empty {s : State} (henv : s.env = []) (hheld : s.held = none) (hbusy : s.busy = false) :
    stepsLeft s = 0 := by
  rw [stepsLeft, henv, hheld, hbusy]
  rfl

/-- A run that is not over, with nothing left of the environment and nothing held, has work. -/
theorem work_of_not_over {s : State} (henv : s.env = []) (hheld : s.held = none) (hover : ¬ runOver s) :
    s.work = .running := by
  cases hwork : s.work with
  | running => rfl
  | none => exact absurd ⟨by simp [henv], hheld, hwork⟩ hover

theorem stepsLeft_pos_of_not_over {s : State} (hinv : Inv s) (henv : s.env = []) (hover : ¬ runOver s) :
    0 < stepsLeft s := by
  cases hheld : s.held with
  | some w => simp [stepsLeft, hheld]
  | none => simp [stepsLeft, hinv.busyIffWork.2 (work_of_not_over henv hheld hover)]

theorem accessInReset_env (a : Access) (s : State) : (accessInReset a s).env = s.env := by
  unfold accessInReset
  split <;> rfl

/-- Every step of a run that is not over leaves fewer steps. -/
theorem stepsLeft_lt {s t : State} (hinv : Inv s) (hrst : s.rst ≠ .unapplied) (hover : ¬ runOver s) (h : Moves s t) :
    stepsLeft t < stepsLeft s := by
  cases h with
  | reset =>
    by_cases henv : s.env = []
    · rw [dropEvent_of_nil henv, stepsLeft_of_empty (s := resetEdge s) henv rfl rfl]
      exact stepsLeft_pos_of_not_over hinv henv hover
    · exact stepsLeft_lt_of_event henv rfl
  | resetAccess a _ henv => exact stepsLeft_lt_of_event henv (accessInReset_env a _)
  | release henv =>
    obtain ⟨-, -, -, he, -⟩ := releaseReset_keeps (dropEvent s)
    exact stepsLeft_lt_of_event henv he
  | unapplied hun => exact absurd hun hrst
  | engine _ hheld =>
    by_cases henv : s.env = []
    · rw [dropEvent_of_nil henv, engineTurn_running (work_of_not_over henv hheld hover),
        stepsLeft_of_empty (s := engineStep s) henv hheld rfl]
      exact stepsLeft_pos_of_not_over hinv henv hover
    · exact stepsLeft_lt_of_event henv (engineTurn_env _)
  | wait w _ _ hbusy =>
    rw [engineTurn_running (hinv.busyIffWork.1 hbusy)]
    simp [stepsLeft, hbusy]
  | resume w t _ hheld hbusy _ hexec =>
    have henv : t.env = s.env := (exec_outside hexec).2
    have hnone : t.held = none := exec_held hexec hbusy
    have hle := t.busy.toNat_le
    simp only [stepsLeft, henv, hnone, hheld, Option.toList_none, Option.toList_some, List.length_nil,
      List.length_singleton]
    omega
  | access a t _ _ henv _ hexec => exact stepsLeft_lt_of_event henv (exec_outside hexec).2

/-! ## What a step keeps of a run -/

theorem rst_ne_unapplied_of_moves {s t : State} (hrst : s.rst ≠ .unapplied) (h : Moves s t) : t.rst ≠ .unapplied := by
  cases h with
  | reset => simp
  | resetAccess => unfold accessInReset; split <;> simp
  | release => unfold releaseReset; split <;> simp_all [dropEvent]
  | unapplied hun => exact absurd hun hrst
  | engine => simpa [dropEvent] using hrst
  | wait => simpa using hrst
  | resume _ _ _ _ _ _ hexec => rw [(exec_outside hexec).1]; exact hrst
  | access _ _ _ _ _ _ hexec => rw [(exec_outside hexec).1]; exact hrst

/-- The values read before stay first (R279). -/
theorem reads_of_moves {s t : State} (h : Moves s t) : ∃ vs, t.reads = s.reads ++ vs := by
  cases h with
  | reset | unapplied => exact ⟨[], (List.append_nil _).symm⟩
  | resetAccess a =>
    unfold accessInReset
    split
    · exact ⟨[0], rfl⟩
    · exact ⟨[], (List.append_nil _).symm⟩
  | release =>
    obtain ⟨-, -, -, -, hr⟩ := releaseReset_keeps (dropEvent s)
    exact ⟨[], by rw [hr, List.append_nil]; rfl⟩
  | engine => exact ⟨[], by rw [engineTurn_reads, List.append_nil]; rfl⟩
  | wait => exact ⟨[], by rw [engineTurn_reads, List.append_nil]⟩
  | resume _ _ _ _ _ _ hexec => exact exec_reads (s := { s with held := none }) hexec
  | access _ _ _ _ _ _ hexec => exact exec_reads (s := dropEvent s) hexec

/-! ## The end of a run -/

theorem runToEnd_of_over {s : State} (h : runOver s) (n : Nat) : runToEnd n s = some s := by
  cases n with
  | zero => rw [runToEnd, if_pos h]
  | succ n => rw [runToEnd, if_pos h]

theorem runToEnd_of_step {s t : State} (h : ¬ runOver s) (hstep : step s = .next t) (n : Nat) :
    runToEnd (n + 1) s = runToEnd n t := by
  rw [runToEnd, if_neg h, hstep]

/-- A run that is not over takes a step, which keeps what a run relies on and leaves fewer steps. -/
theorem exists_step_of_not_over {s : State} (hinv : Inv s) (hrst : s.rst ≠ .unapplied) (hover : ¬ runOver s) :
    ∃ u, step s = .next u ∧ Inv u ∧ u.rst ≠ .unapplied ∧ stepsLeft u < stepsLeft s ∧
      ∃ vs, u.reads = s.reads ++ vs := by
  obtain ⟨u, hstep⟩ := noStopAfterReset s hrst
  have hmoves := moves_of_step hstep
  exact ⟨u, hstep, stepKeepsInvariant s u hinv hstep, rst_ne_unapplied_of_moves hrst hmoves,
    stepsLeft_lt hinv hrst hover hmoves, reads_of_moves hmoves⟩

/-- A run of enough steps reaches its end, where the invariant holds and what was read before stands first. -/
theorem exists_runToEnd {n : Nat} {s : State} (hinv : Inv s) (hrst : s.rst ≠ .unapplied) (hn : stepsLeft s ≤ n) :
    ∃ t, runToEnd n s = some t ∧ runOver t ∧ Inv t ∧ ∃ vs, t.reads = s.reads ++ vs := by
  induction n generalizing s with
  | zero =>
    have hover : runOver s := by
      by_contra hover
      obtain ⟨u, -, -, -, hlt, -⟩ := exists_step_of_not_over hinv hrst hover
      omega
    exact ⟨s, runToEnd_of_over hover 0, hover, hinv, [], (List.append_nil _).symm⟩
  | succ n ih =>
    by_cases hover : runOver s
    · exact ⟨s, runToEnd_of_over hover _, hover, hinv, [], (List.append_nil _).symm⟩
    · obtain ⟨u, hstep, huinv, hurst, hlt, us, hus⟩ := exists_step_of_not_over hinv hrst hover
      obtain ⟨t, hrun, htover, htinv, vs, hvs⟩ := ih huinv hurst (by omega)
      exact ⟨t, (runToEnd_of_step hover hstep n).trans hrun, htover, htinv, us ++ vs, by
        rw [hvs, hus, List.append_assoc]⟩

/-- No access is left exactly when every event left is none. -/
theorem no_access_iff (env : List Event) : (∀ e ∈ env, isAccess e = false) ↔ ∀ a, Event.access a ∉ env := by
  constructor
  · intro h a ha
    exact Bool.noConfusion (h _ ha)
  · intro h e he
    cases e with
    | access a => exact absurd he (h a)
    | engine | rstLow | rstHigh => rfl

/-- Settles O54: `stepsLeft` bounds the run, and at its end BUSY has fallen with the work. -/
theorem everyRunEnds : Obligations.EveryRunEnds := by
  unfold Obligations.EveryRunEnds
  intro s hinv hrst
  constructor
  · obtain ⟨t, hrun, ⟨henv, hheld, hwork⟩, htinv, hreads⟩ := exists_runToEnd hinv hrst (stepsLeft_le s)
    have hbusy : t.busy = false := Bool.eq_false_iff.2 fun hb => by simp [htinv.busyIffWork.1 hb] at hwork
    exact ⟨t, hrun, (no_access_iff _).1 henv, hheld, hwork, hbusy, hreads⟩
  · intro henv hheld hwork n
    exact runToEnd_of_over ⟨(no_access_iff _).2 henv, hheld, hwork⟩ n

end Sys2Proof.Machine
end

section
/-! START (40_commands.md R105), what a read returns (R111, 20_memory.md R59), the accesses that never touch the session
(R57), the phase-transition table (70_reset_and_hazards.md R274), and O18, O25, O33, O34, O52, O53 and O55. -/

namespace Sys2Proof.Machine

open Sys2Proof.Certificates

/-! ## START -/

theorem exec_start_idle {s : State} (hidle : s.busy = false) (p : BitVec 3) (w : BitVec 4) :
    exec (.start p w) s = .next (startEffect p w s) := by
  rw [exec_start, whenAccepted_idle hidle]

theorem supported_iff_mem : ∀ (p : BitVec 3) (w : BitVec 4),
    supported p w = true ↔ p.toNat ∈ [3, 4, 5] ∧ w.toNat ∈ [4, 5, 6, 7, 8] := by
  decide

/-- START of a supported pair: a fresh session. -/
theorem startEffect_supported {p : BitVec 3} {w : BitVec 4} (h : supported p w = true) (s : State) :
    startEffect p w s =
      { s with
        err := .none, digest := zeroWords8, cfgPasses := p, cfgWords := w, fp := iv, count := 0, blk := []
        phase := .active } := by
  rw [startEffect, if_pos h]

/-- START of any other pair: the error entry, with ERR = CFG since START clears ERR first (R242). -/
theorem startEffect_unsupported {p : BitVec 3} {w : BitVec 4} (h : ¬ supported p w = true) (s : State) :
    startEffect p w s =
      { s with
        err := .cfg, digest := zeroWords8, cfgPasses := 0, cfgWords := 0, fp := zeroWords8, count := 0, blk := []
        phase := .failed } := by
  rw [startEffect, if_neg h]
  rfl

/-- Settles O18: the listed pairs are the supported ones. -/
theorem startOpensOrRejects : Obligations.StartOpensOrRejects := by
  unfold Obligations.StartOpensOrRejects
  intro s p w hidle
  rw [← supported_iff_mem, exec_start_idle hidle]
  exact ⟨fun h => congrArg _ (startEffect_supported h s), fun h => congrArg _ (startEffect_unsupported h s)⟩

/-! ## The error entry's code -/

theorem fail_err_of_none {s : State} (h : s.err = .none) (c : ErrCode) : (fail c s).err = c := by
  rw [fail_err, if_pos h]

theorem fail_err_of_ne_none {s : State} (h : s.err ≠ .none) (c : ErrCode) : (fail c s).err = s.err := by
  rw [fail_err, if_neg h]

/-- Settles O25: well-formedness is checked before the phase and the configuration are looked at (R246). -/
theorem illegalComesFirst : Obligations.IllegalComesFirst := by
  unfold Obligations.IllegalComesFirst
  intro s v t hidle herr hill hexec
  rw [exec_wrCtrl, whenAccepted_idle hidle, ctrlEffect_illegal hill] at hexec
  cases hexec
  exact fail_err_of_none herr .illegal

/-! ## Reads -/

theorem exec_rd (a : BitVec 5) (s : State) : exec (.rd a) s = .next (busRead a s) := rfl

/-- A read of an unspecified offset during the BUSY interval returns the free value (20_memory.md R59). -/
theorem busRead_unspecified {a : BitVec 5} {s : State} (hbusy : s.busy = true) (ha : unspecifiedWhileBusy a = true) :
    busRead a s = { s with reads := s.reads ++ [Config.freeRead s.draws], draws := s.draws + 1 } := by
  rw [busRead, if_pos (Bool.and_eq_true_iff.2 ⟨hbusy, ha⟩)]
  rfl

/-- Any other read is answered from the register map. -/
theorem busRead_register {a : BitVec 5} {s : State} (h : s.busy = false ∨ ¬ unspecifiedWhileBusy a = true) :
    busRead a s = returnRead (readRegister a s) s := by
  rw [busRead, if_neg]
  rw [Bool.and_eq_true]
  rintro ⟨hbusy, ha⟩
  exact h.elim (by simp [hbusy]) (absurd ha)

/-- The register map by the offset as a number (10_state.md R32 to R39). -/
theorem readRegister_eq (a : BitVec 5) (s : State) :
    readRegister a s =
      if a.toNat = 1 then statusWord s
      else if a.toNat = 2 then configWord s
      else if a.toNat = 3 then s.data
      else if a.toNat = 5 then s.count.extractLsb' 0 32
      else if a.toNat = 6 then s.count.extractLsb' 32 32
      else if 8 ≤ a.toNat ∧ a.toNat < 16 then (if s.phase = .done then wordAt s.digest (a.toNat - 8) else 0)
      else 0 := by
  simp only [readRegister, BitVec.toNat_eq]
  rfl

/-- The fields of STATUS (10_state.md R33). -/
theorem status_fields : ∀ (e : BitVec 4) (p : BitVec 2),
    let v : Word := (e ++ (0 : BitVec 1) ++ p ++ BitVec.ofBool false).setWidth 32
    v.extractLsb' 0 1 = 0 ∧ v.extractLsb' 1 2 = p ∧ v.extractLsb' 3 1 = 0 ∧ v.extractLsb' 4 4 = e ∧
      v.extractLsb' 8 24 = 0 := by
  decide

/-- The fields of CONFIG (10_state.md R34). -/
theorem config_fields : ∀ (w : BitVec 4) (p : BitVec 3),
    let v : Word := (w ++ (0 : BitVec 1) ++ p ++ (0 : BitVec 8)).setWidth 32
    v.extractLsb' 0 8 = 0 ∧ v.extractLsb' 8 3 = p ∧ v.extractLsb' 11 1 = 0 ∧ v.extractLsb' 12 4 = w ∧
      v.extractLsb' 16 16 = 0 := by
  decide

theorem statusWord_idle {s : State} (hidle : s.busy = false) :
    statusWord s = (errBits s.err ++ (0 : BitVec 1) ++ phaseBits s.phase ++ BitVec.ofBool false).setWidth 32 := by
  rw [statusWord, hidle, if_neg Bool.false_ne_true]

theorem statusWord_busy {s : State} (hbusy : s.busy = true) : statusWord s = 0x00000003 := by
  rw [statusWord, if_pos hbusy]

/-- The halves of COUNT (10_state.md R37). -/
theorem toNat_count_low (c : BitVec 64) : (c.extractLsb' 0 32).toNat = c.toNat % 2 ^ 32 := by
  rw [BitVec.extractLsb'_toNat, Nat.shiftRight_zero]

theorem toNat_count_high (c : BitVec 64) : (c.extractLsb' 32 32).toNat = c.toNat / 2 ^ 32 := by
  have hc : c.toNat < 2 ^ 64 := c.isLt
  rw [BitVec.extractLsb'_toNat, Nat.shiftRight_eq_div_pow]
  omega

/-- Settles O33: on an idle engine the read is answered from the register map. -/
theorem readReturnsRegister : Obligations.ReadReturnsRegister := by
  unfold Obligations.ReadReturnsRegister
  intro a s hidle
  refine ⟨readRegister a s, congrArg _ (busRead_register (.inl hidle)), ?_⟩
  rw [readRegister_eq]
  refine ⟨?status, ?config, ?data, ?low, ?high, ?digest, ?zero⟩
  case status =>
    intro ha
    rw [if_pos ha, statusWord_idle hidle]
    exact status_fields _ _
  case config =>
    intro ha
    rw [if_neg (by omega), if_pos ha]
    exact config_fields _ _
  case data => intro ha; simp [ha]
  case low => intro ha; simp only [ha]; exact toNat_count_low _
  case high => intro ha; simp only [ha]; exact toNat_count_high _
  case digest =>
    intro hlo hhi
    rw [if_neg (by omega), if_neg (by omega), if_neg (by omega), if_neg (by omega), if_neg (by omega),
      if_pos (by omega)]
  case zero =>
    intro ha
    rw [if_neg (by omega), if_neg (by omega), if_neg (by omega), if_neg (by omega), if_neg (by omega),
      if_neg (by omega)]

/-- The unspecified offsets of R59 as numbers. -/
theorem unspecifiedWhileBusy_iff : ∀ a : BitVec 5,
    unspecifiedWhileBusy a = true ↔ a.toNat = 5 ∨ a.toNat = 6 ∨ 8 ≤ a.toNat ∧ a.toNat ≤ 15 := by
  decide

/-- At every specified offset a read on a busy engine returns the register map's value too, and STATUS is 3 (R59). -/
theorem readRegister_busy {a : BitVec 5} {s : State} (hbusy : s.busy = true)
    (ha : ¬ (a.toNat = 5 ∨ a.toNat = 6 ∨ 8 ≤ a.toNat ∧ a.toNat ≤ 15)) :
    readRegister a s =
      if a.toNat = 1 then 0x00000003 else if a.toNat = 2 then configWord s else if a.toNat = 3 then s.data else 0 := by
  rw [readRegister_eq, statusWord_busy hbusy, if_neg (by omega : ¬ a.toNat = 5), if_neg (by omega : ¬ a.toNat = 6),
    if_neg (by omega : ¬ (8 ≤ a.toNat ∧ a.toNat < 16))]

/-- Settles O34: while BUSY = 1 the offsets of R59 read the free value, the others the register map. -/
theorem readDuringBusy : Obligations.ReadDuringBusy := by
  unfold Obligations.ReadDuringBusy
  intro a s hbusy
  rw [← unspecifiedWhileBusy_iff]
  refine ⟨fun ha => ⟨_, congrArg _ (busRead_unspecified hbusy ha)⟩, fun ha => ?specified⟩
  case specified =>
    rw [exec_rd, busRead_register (.inr ha), readRegister_busy hbusy (mt (unspecifiedWhileBusy_iff a).2 ha)]
    rfl

/-! ## The accesses that never touch the session -/

/-- A read changes the two records of the model's own and nothing else. -/
theorem busRead_frame (a : BitVec 5) (s : State) :
    (busRead a s).data = s.data ∧
      busRead a s = { s with reads := (busRead a s).reads, draws := (busRead a s).draws } ∧
      ∃ v, (busRead a s).reads = s.reads ++ [v] := by
  unfold busRead
  split <;> exact ⟨rfl, rfl, _, rfl⟩

/-- Settles O52: none of the three stalls, and each writes only its own fields. -/
theorem onlyCtrlAndMsgTouchTheSession : Obligations.OnlyCtrlAndMsgTouchTheSession := by
  unfold Obligations.OnlyCtrlAndMsgTouchTheSession
  rintro s _ (⟨v, rfl⟩ | ⟨a, v, rfl⟩ | ⟨a, rfl⟩)
  case inl =>
    refine ⟨withData v s, exec_wrData v s, rfl, ?_, ?_, ?_⟩
    · rintro _ ⟨⟩; exact ⟨rfl, rfl, rfl⟩
    · rintro ⟨_, _, ⟨⟩⟩
    · rintro ⟨_, ⟨⟩⟩
  case inr.inl => exact ⟨s, exec_wrIgnored a v s, rfl, nofun, fun _ => rfl, nofun⟩
  case inr.inr =>
    obtain ⟨hdata, hframe, hreads⟩ := busRead_frame a s
    refine ⟨busRead a s, exec_rd a s, ?_, nofun, nofun, fun _ => ⟨hdata, hreads⟩⟩
    rw [hdata]
    exact hframe

/-! ## The phase-transition table -/

/-- The entries of the table for an access that needs an open session, in the phases without one. -/
def Misused (s t : State) : Prop :=
  (s.phase = .idle ∨ s.phase = .done → t.phase = .failed ∧ t.err = .seq) ∧
    (s.phase = .failed → t.phase = .failed ∧ t.err = s.err)

section
variable {s : State} (herr : s.err ≠ .none ↔ s.phase = .failed)
include herr

theorem err_of_not_failed (hphase : s.phase ≠ .failed) : s.err = .none := not_not.1 (mt herr.1 hphase)

/-- The error entry with SEQ makes those entries. -/
theorem misused_of_fail_seq {t : State} (ht : s.phase ≠ .active → t = fail .seq s) : Misused s t := by
  refine ⟨fun hphase => ?_, fun hphase => ?_⟩
  · have hnot : s.phase ≠ .active ∧ s.phase ≠ .failed := by rcases hphase with h | h <;> simp [h]
    rw [ht hnot.1]
    exact ⟨rfl, fail_err_of_none (err_of_not_failed herr hnot.2) .seq⟩
  · rw [ht (by simp [hphase])]
    exact ⟨rfl, fail_err_of_ne_none (herr.2 hphase) .seq⟩

/-- The column of ABSORB and MSG. -/
theorem absorbBytes_transition (bs : List Byte) :
    (s.phase = .active → (absorbBytes bs s).phase = .active ∧ (absorbBytes bs s).err = .none ∨
      (absorbBytes bs s).phase = .failed ∧ (absorbBytes bs s).err = .len) ∧ Misused s (absorbBytes bs s) := by
  refine ⟨fun hphase => ?_, misused_of_fail_seq herr fun hphase => absorbBytes_seq hphase bs⟩
  have hnone : s.err = .none := err_of_not_failed herr (by simp [hphase])
  by_cases hfit : s.count.toNat + 8 * bs.length ≤ 2 ^ 64 - 1
  · obtain ⟨he, hp⟩ := absorbBytes_fit hphase rfl hfit
    exact .inl ⟨hp, he.trans hnone⟩
  · rw [absorbBytes_len hphase bs (by omega)]
    exact .inr ⟨rfl, fail_err_of_none hnone .len⟩

/-- The column of FINAL. -/
theorem finalEffect_transition :
    (s.phase = .active → (finalEffect s).phase = .done ∧ (finalEffect s).err = .none) ∧ Misused s (finalEffect s) := by
  refine ⟨fun hphase => ?_, misused_of_fail_seq herr fun hphase => by rw [finalEffect, if_pos hphase]⟩
  obtain ⟨he, hp⟩ := finalEffect_active hphase
  exact ⟨hp, he.trans (err_of_not_failed herr (by simp [hphase]))⟩

end

/-- On an idle engine ABSORB and MSG are the checked absorb of some bytes (R102, R106, R110). -/
theorem exists_absorbBytes {s : State} (hidle : s.busy = false) {i : Instr}
    (hi : (∃ nb : BitVec 3, nb.toNat ≤ 4 ∧ i = .absorb nb) ∨ ∃ v, i = .wrMsg v) :
    ∃ bs, exec i s = .next (absorbBytes bs s) := by
  rcases hi with ⟨nb, hnb, rfl⟩ | ⟨v, rfl⟩
  · exact ⟨_, exec_absorb_idle hidle hnb⟩
  · exact ⟨_, exec_wrMsg_idle hidle v⟩

/-- The last column: accesses that leave PHASE and ERR. -/
theorem exec_keeps_phase {s : State} (hidle : s.busy = false) {i : Instr}
    (hi : i = .nop ∨ (∃ a, i = .rd a) ∨ (∃ v, i = .wrData v) ∨ ∃ a v, i = .wrIgnored a v) :
    ∃ t, exec i s = .next t ∧ t.phase = s.phase ∧ t.err = s.err := by
  rcases hi with rfl | ⟨a, rfl⟩ | ⟨v, rfl⟩ | ⟨a, v, rfl⟩
  · exact ⟨s, by rw [exec_nop, whenAccepted_idle hidle, nopEffect], rfl, rfl⟩
  · exact ⟨_, exec_rd a s, by rw [(busRead_frame a s).2.1], by rw [(busRead_frame a s).2.1]⟩
  · exact ⟨_, exec_wrData v s, rfl, rfl⟩
  · exact ⟨s, exec_wrIgnored a v s, rfl, rfl⟩

/-- Settles O53: the table column by column. -/
theorem phaseTransitions : Obligations.PhaseTransitions := by
  unfold Obligations.PhaseTransitions
  intro s hidle herr
  refine ⟨fun p w hpair => ⟨_, exec_start_idle hidle p w, ?_⟩, fun p w hpair => ⟨_, exec_start_idle hidle p w, ?_⟩,
    fun i hi => ?absorb, ⟨_, exec_final_idle hidle, finalEffect_transition herr⟩, ⟨abortEffect s, ?abort, rfl, rfl⟩,
    fun i hi => exec_keeps_phase hidle hi⟩
  · rw [startEffect_supported hpair]
    exact ⟨rfl, rfl⟩
  · rw [startEffect_unsupported (Bool.eq_false_iff.1 hpair)]
    exact ⟨rfl, rfl⟩
  case absorb =>
    obtain ⟨bs, hexec⟩ := exists_absorbBytes hidle hi
    exact ⟨_, hexec, absorbBytes_transition herr bs⟩
  case abort => rw [exec_abort, whenAccepted_idle hidle]

/-! ## A way back to IDLE -/

theorem engineTurn_idle {s : State} (h : s.busy = true → s.work = .running) : (engineTurn s).busy = false := by
  cases hwork : s.work with
  | running => rw [engineTurn_running hwork, engineStep_busy]
  | none =>
    rw [engineTurn_none hwork]
    exact Bool.eq_false_iff.2 fun hb => by simp [h hb] at hwork

/-- Settles O55: after the ENGINE's turn ABORT is accepted; a reset edge is taken before anything else. -/
theorem everyStateReachesIdle : Obligations.EveryStateReachesIdle := by
  unfold Obligations.EveryStateReachesIdle
  intro s
  refine ⟨fun hwork => ?abort, _, step_rstLow rfl, rfl, rfl, rfl⟩
  case abort =>
    have hidle := engineTurn_idle hwork
    exact ⟨abortEffect (engineTurn s), by rw [exec_abort, whenAccepted_idle hidle], rfl, rfl, hidle⟩

end Sys2Proof.Machine
end

section
/-! Blocks (40_commands.md R101, R107, 42_padding.md R170 to R179): what stands in BLK when a run of bytes completes it,
what the compression makes of it, and O19, O20, O26, O27 and O30. -/

namespace Sys2Proof.Machine

open Sys2Proof.Certificates

/-! ## A compression of a block known by its bytes -/

theorem wordsOf_congr {b b' : Nat → Byte} (h : ∀ n < 128, b n = b' n) {j : Nat} (hj : j < 32) :
    wordsOf b j = wordsOf b' j := by
  rw [wordsOf, wordsOf, h _ (by omega), h _ (by omega), h _ (by omega), h _ (by omega)]

theorem working_eq_runRounds {p : BitVec 3} (hp : supportedPasses p = true) {blk : List Host.Cell} {b : Nat → Byte}
    (hblk : ∀ n < 128, Memory.read blk n = b n) (fp : Words8) : working fp blk p = runRounds (wordsOf b) p fp := by
  rw [working, if_pos hp]
  exact runRounds_congr (fun j hj => wordsOf_congr hblk hj) p fp

/-- The compression of a block that reads as `b` (R140). -/
theorem compressBlock_eq {s : State} (hp : supportedPasses s.cfgPasses = true) {b : Nat → Byte}
    (hblk : ∀ n < 128, Memory.read s.blk n = b n) :
    compressBlock s =
      { s with
        fp := compressWords (wordsOf b) s.cfgPasses s.fp
        t := runRounds (wordsOf b) s.cfgPasses s.fp
        seqRound := s.cfgPasses
        seqStep := 31
        work := .running
        busy := true } := by
  rw [compressBlock, compress, working_eq_runRounds hp hblk]
  rfl

/-! ## Runs of bytes that complete no block, one block, or two -/

/-- The block that the first bytes of a run complete. -/
def filledState (bs : List Byte) (s : State) : State := storedRun (bs.take (128 - pend s.count)) s

theorem length_take_of_cross {bs : List Byte} {s : State} (h : 128 ≤ pend s.count + bs.length) :
    (bs.take (128 - pend s.count)).length = 128 - pend s.count := by
  rw [List.length_take]
  omega

theorem read_filledState {bs : List Byte} {s : State} (hw : Memory.wf s.blk) (h : 128 ≤ pend s.count + bs.length)
    {n : Nat} (hn : n < 128) : Memory.read (filledState bs s).blk n = filledByte bs s n := by
  rw [filledState, storedRun_blk, read_storeBytes hw, length_take_of_cross h, filledByte]
  by_cases hlow : n < pend s.count
  · rw [if_neg (by omega), if_pos hlow]
  · rw [if_pos (by omega), if_neg hlow, List.getD_eq_getElem?_getD, List.getElem?_take_of_lt (by omega),
      ← List.getD_eq_getElem?_getD]

theorem read_filledState_outside {bs : List Byte} {s : State} (hw : Memory.wf s.blk)
    (h : 128 ≤ pend s.count + bs.length) {n : Nat} (hn : 128 ≤ n) :
    Memory.read (filledState bs s).blk n = Memory.read s.blk n := by
  have hlt := pend_lt s.count
  rw [filledState, storedRun_blk, read_storeBytes hw, length_take_of_cross h, if_neg (by omega)]

theorem filledState_wf {bs : List Byte} {s : State} (hw : Memory.wf s.blk) : Memory.wf (filledState bs s).blk :=
  storeBytes_wf hw _ _

theorem absorbedInside_storedRun {bs : List Byte} {s : State} (hw : Memory.wf s.blk) :
    AbsorbedInside bs s (storedRun bs s) :=
  ⟨rfl, fun n => read_storeBytes hw (pend s.count) bs n⟩

theorem pend_filledState {bs : List Byte} {s : State} (h : 128 ≤ pend s.count + bs.length) :
    pend (filledState bs s).count = 0 := by
  have hlt := pend_lt s.count
  rw [filledState, storedRun_count, pend_add, length_take_of_cross h]
  omega

/-- Counting the two parts of a run one after the other counts the run. -/
theorem count_take_drop (bs : List Byte) (k : Nat) (c : BitVec 64) :
    c + BitVec.ofNat 64 (8 * (bs.take k).length) + BitVec.ofNat 64 (8 * (bs.drop k).length) =
      c + BitVec.ofNat 64 (8 * bs.length) := by
  rw [BitVec.add_assoc, ← BitVec.ofNat_add, ← Nat.mul_add, ← List.length_append, List.take_append_drop]

/-- The compression of the block that a run completes. -/
theorem compressBlock_filledState {bs : List Byte} {s : State} (hw : Memory.wf s.blk)
    (hp : supportedPasses s.cfgPasses = true) (h : 128 ≤ pend s.count + bs.length) {b : Nat → Byte}
    (hb : ∀ n < 128, filledByte bs s n = b n) :
    compressBlock (filledState bs s) =
      { filledState bs s with
        fp := compressWords (wordsOf b) s.cfgPasses s.fp
        t := runRounds (wordsOf b) s.cfgPasses s.fp
        seqRound := s.cfgPasses
        seqStep := 31
        work := .running
        busy := true } :=
  compressBlock_eq (s := filledState bs s) (b := b) hp fun n hn => (read_filledState hw h hn).trans (hb n hn)

/-- A run that completes a block is the compression of that block, then the rest of the run. -/
theorem foldl_absorbByte_first_block {bs : List Byte} {s : State} (h : 128 ≤ pend s.count + bs.length) :
    bs.foldl absorbByte s = (bs.drop (128 - pend s.count)).foldl absorbByte (compressBlock (filledState bs s)) := by
  have hlt := pend_lt s.count
  have hlen := length_take_of_cross h
  rw [filledState, ← foldl_absorbByte_fill (bs.take (128 - pend s.count)) (by omega), ← List.foldl_append,
    List.take_append_drop]

theorem getD_drop (bs : List Byte) (k n : Nat) : (bs.drop k).getD n 0 = bs.getD (k + n) 0 := by
  rw [List.getD_eq_getElem?_getD, List.getElem?_drop, ← List.getD_eq_getElem?_getD]

/-- A run across the end of a block: what is left over goes to the start of BLK, under which the compressed block's
bytes still stand. -/
theorem absorbedAcross_of_cross {bs : List Byte} {s : State} (hw : Memory.wf s.blk)
    (hp : supportedPasses s.cfgPasses = true) (h : 128 ≤ pend s.count + bs.length) :
    AbsorbedAcross bs s (storedRun (bs.drop (128 - pend s.count)) (compressBlock (filledState bs s))) := by
  have hlt := pend_lt s.count
  constructor
  · rw [compressBlock_filledState hw hp h fun _ _ => rfl, storedRun]
    simp only [filledState, storedRun, count_take_drop]
  · intro n
    rw [storedRun_blk, compressBlock_count, compressBlock_blk, pend_filledState h,
      read_storeBytes (filledState_wf hw), List.length_drop]
    by_cases hleft : n < pend s.count + bs.length - 128
    · rw [if_pos (by omega), if_pos hleft, getD_drop]
      congr 1
      omega
    · rw [if_neg (by omega), if_neg hleft]
      split
      · next hn => exact read_filledState hw h hn
      · next hn => exact read_filledState_outside hw h (by omega)

/-- Absorbing a run of at most one block's bytes (R101, R102). -/
theorem absorbed_foldl_absorbByte {bs : List Byte} {s : State} (hw : Memory.wf s.blk)
    (hp : supportedPasses s.cfgPasses = true) (hlen : bs.length ≤ 128) : Absorbed bs s (bs.foldl absorbByte s) := by
  have hlt := pend_lt s.count
  refine ⟨fun h => ?_, fun h => ?_⟩
  · rw [foldl_absorbByte_open bs h]
    exact absorbedInside_storedRun hw
  · rw [foldl_absorbByte_cross bs h (by omega)]
    exact absorbedAcross_of_cross hw hp h

theorem absorbed_absorbBytes {bs : List Byte} {s : State} (hphase : s.phase = .active)
    (hfit : s.count.toNat + 8 * bs.length ≤ 2 ^ 64 - 1) (hw : Memory.wf s.blk)
    (hp : supportedPasses s.cfgPasses = true) (hlen : bs.length ≤ 128) : Absorbed bs s (absorbBytes bs s) := by
  rw [absorbBytes_ok hphase bs hfit]
  exact absorbed_foldl_absorbByte hw hp hlen

/-- Settles O19: ABSORB makes the checked absorb of the nb low bytes of DATA; no bytes are the empty run. -/
theorem absorbMovesDataBytes : Obligations.AbsorbMovesDataBytes := by
  unfold Obligations.AbsorbMovesDataBytes
  intro s nb hidle hphase hnb hfit hw hp
  have hlen := lowBytes_length nb.toNat s.data
  refine ⟨_, exec_absorb_idle hidle hnb,
    absorbed_absorbBytes hphase (hlen.symm ▸ hfit) hw hp (by omega), fun hzero => ?_⟩
  rw [absorbBytes_ok hphase _ (hlen.symm ▸ hfit), hzero]
  rfl

/-- Settles O20: MSG makes the checked absorb of the four bytes of its value. -/
theorem msgWriteMovesFourBytes : Obligations.MsgWriteMovesFourBytes := by
  unfold Obligations.MsgWriteMovesFourBytes
  intro s v hidle hphase hfit hw hp
  exact ⟨_, exec_wrMsg_idle hidle v, absorbed_absorbBytes (bs := lowBytes 4 v) hphase hfit hw hp (by simp)⟩

/-! ## The blocks of FINAL (42_padding.md R179) -/

/-- What FINAL absorbs: the padding, then the tail (R170). -/
def finalBytes (s : State) : List Byte := padding (pend s.count) ++ tailBytes s.cfgPasses s.cfgWords s.count

theorem padAndTail_eq (s : State) : padAndTail s = (finalBytes s).foldl absorbByte s := rfl

/-- The padding ends at byte 118 of a block and the tail ends the block. -/
theorem pend_add_length_finalBytes (s : State) :
    pend s.count + (finalBytes s).length = if pend s.count < 118 then 128 else 256 := by
  have hend := add_padLength (pend_lt s.count)
  rw [finalBytes, List.length_append, padding_length _ (pend_lt _), tailBytes_length, ← Nat.add_assoc, hend]
  split <;> rfl

/-- Byte k of what FINAL absorbs. -/
theorem finalBytes_getD (s : State) (k : Nat) :
    (finalBytes s).getD k 0 =
      if k = 0 then 0x01
      else if k < padLength (pend s.count) then 0x00
      else (tailBytes s.cfgPasses s.cfgWords s.count).getD (k - padLength (pend s.count)) 0 := by
  have hlen := padding_length _ (pend_lt s.count)
  have hpos := one_le_padLength (pend_lt s.count)
  rw [finalBytes]
  by_cases hk : k < padLength (pend s.count)
  · rw [List.getD_append _ _ _ _ (by omega), padding_getD, if_pos hk]
  · rw [List.getD_append_right _ _ _ _ (by omega), hlen, if_neg (by omega), if_neg hk]

/-- With fewer than 118 pending bytes, what FINAL absorbs fills the one block of R179. -/
theorem filledByte_one_block {s : State} (h : pend s.count < 118) (n : Nat) :
    filledByte (finalBytes s) s n = lastBlockByte s n := by
  have hpad : padLength (pend s.count) = 118 - pend s.count := if_pos h
  rw [filledByte, lastBlockByte]
  by_cases hlow : n < pend s.count
  · rw [if_pos hlow, if_pos hlow]
  rw [if_neg hlow, if_neg hlow, finalBytes_getD, hpad]
  by_cases hone : n = pend s.count
  · rw [if_pos (by omega), if_pos (by omega)]
  have hafter : ¬ n - pend s.count = 0 := by omega
  have hafter' : ¬ (n = pend s.count ∧ n < 118) := by omega
  rw [if_neg hafter, if_neg hafter']
  by_cases hzero : n < 118
  · rw [if_pos (by omega), if_pos hzero]
  · have hindex : n - pend s.count - (118 - pend s.count) = n - 118 := by omega
    rw [if_neg (by omega), if_neg hzero, hindex]

/-- With 118 or more pending bytes, the padding fills the first of two blocks. -/
theorem filledByte_first_of_two {s : State} (h : 118 ≤ pend s.count) {n : Nat} (hn : n < 128) :
    filledByte (finalBytes s) s n = paddedBlockByte s n := by
  have hpad : padLength (pend s.count) = 246 - pend s.count := if_neg (by omega)
  rw [filledByte, paddedBlockByte]
  by_cases hlow : n < pend s.count
  · rw [if_pos hlow, if_pos hlow]
  rw [if_neg hlow, if_neg hlow, finalBytes_getD, hpad]
  by_cases hone : n = pend s.count
  · rw [if_pos (by omega), if_pos hone]
  · rw [if_neg (by omega), if_pos (by omega), if_neg hone]

/-- The rest is the second block: zeros, then the tail. -/
theorem finalBytes_second_of_two {s : State} (h : 118 ≤ pend s.count) (n : Nat) :
    ((finalBytes s).drop (128 - pend s.count)).getD n 0 = tailBlockByte s n := by
  have hpad : padLength (pend s.count) = 246 - pend s.count := if_neg (by omega)
  have hlt := pend_lt s.count
  rw [getD_drop, finalBytes_getD, hpad, if_neg (by omega), tailBlockByte]
  by_cases hzero : n < 118
  · rw [if_pos (by omega), if_pos hzero]
  · have hindex : 128 - pend s.count + n - (246 - pend s.count) = n - 118 := by omega
    rw [if_neg (by omega), if_neg hzero, hindex]

/-- `t` is `s` after absorbing with a last compression of the block words `w` from the fingerprint `fp`; what is left in
COUNT and BLK is not said. -/
def CompressedLast (w : Nat → Word) (fp : Words8) (s t : State) : Prop :=
  t = { s with
    count := t.count
    blk := t.blk
    fp := compressWords w s.cfgPasses fp
    t := runRounds w s.cfgPasses fp
    seqRound := s.cfgPasses
    seqStep := 31
    work := .running
    busy := true }

theorem padAndTail_one_block {s : State} (hw : Memory.wf s.blk) (hp : supportedPasses s.cfgPasses = true)
    (h : pend s.count < 118) : CompressedLast (wordsOf (lastBlockByte s)) s.fp s (padAndTail s) := by
  have hlen : pend s.count + (finalBytes s).length = 128 := (pend_add_length_finalBytes s).trans (if_pos h)
  rw [padAndTail_eq, foldl_absorbByte_first_block (by omega), List.drop_of_length_le (by omega), List.foldl_nil,
    compressBlock_filledState hw hp (by omega) fun n _ => filledByte_one_block h n]
  rfl

theorem padAndTail_two_blocks {s : State} (hw : Memory.wf s.blk) (hp : supportedPasses s.cfgPasses = true)
    (h : 118 ≤ pend s.count) :
    CompressedLast (wordsOf (tailBlockByte s)) (compressWords (wordsOf (paddedBlockByte s)) s.cfgPasses s.fp) s
      (padAndTail s) := by
  have hlt := pend_lt s.count
  have hlen : pend s.count + (finalBytes s).length = 256 := (pend_add_length_finalBytes s).trans (if_neg (by omega))
  obtain ⟨u, hu⟩ : ∃ u, u = compressBlock (filledState (finalBytes s) s) := ⟨_, rfl⟩
  have hpend : pend u.count = 0 := by
    rw [hu, compressBlock_count, pend_filledState (by omega)]
  have huwf : Memory.wf u.blk := by
    rw [hu, compressBlock_blk]
    exact filledState_wf hw
  have hrest : ((finalBytes s).drop (128 - pend s.count)).length = 128 := by rw [List.length_drop]; omega
  have hread : ∀ n < 128,
      Memory.read (storedRun ((finalBytes s).drop (128 - pend s.count)) u).blk n = tailBlockByte s n := by
    intro n hn
    rw [storedRun_blk, read_storeBytes huwf, hpend, if_pos (by omega), Nat.sub_zero, finalBytes_second_of_two h]
  have hfirst := hu.trans (compressBlock_filledState hw hp (by omega) fun n hn => filledByte_first_of_two h hn)
  have hpasses : u.cfgPasses = s.cfgPasses := by rw [hfirst]; rfl
  rw [padAndTail_eq, foldl_absorbByte_first_block (by omega), ← hu, foldl_absorbByte_fill _ (by omega),
    compressBlock_eq (by rw [storedRun_cfgPasses, hpasses]; exact hp) hread, hfirst]
  rfl

/-- FINAL after the compressions: the digest, the cleared session, DONE and the work (R107). -/
theorem finished_finalEffect {w : Nat → Word} {fp : Words8} {s : State} (hphase : s.phase = .active)
    (h : CompressedLast w fp s (padAndTail s)) : Finished w fp s (finalEffect s) := by
  rw [finalEffect_of_active hphase, finalDigest, h]
  rfl

/-- Settles O26: what FINAL absorbs ends the pending block. -/
theorem finalWithOneBlock : Obligations.FinalWithOneBlock := by
  unfold Obligations.FinalWithOneBlock
  intro s hidle hphase hw hp h
  exact ⟨_, exec_final_idle hidle, finished_finalEffect hphase (padAndTail_one_block hw hp h)⟩

/-- Settles O27: what FINAL absorbs ends the pending block and is one block more. -/
theorem finalWithTwoBlocks : Obligations.FinalWithTwoBlocks := by
  unfold Obligations.FinalWithTwoBlocks
  intro s hidle hphase hw hp h
  exact ⟨_, exec_final_idle hidle, finished_finalEffect hphase (padAndTail_two_blocks hw hp h)⟩

/-! ## The same through CTRL -/

theorem exec_wrCtrl_startWord (p : BitVec 3) (w : BitVec 4) (s : State) :
    exec (.wrCtrl (startWord p w)) s = exec (.start p w) s := by
  obtain ⟨-, hw, -, hp, -⟩ := startWord_fields p w
  rw [exec_wrCtrl_of_isStart (isStart_startWord p w), hp, hw]

theorem exec_wrCtrl_absorbWord {nb : BitVec 3} (hnb : nb.toNat ≤ 4) (s : State) :
    exec (.wrCtrl (absorbWord nb)) s = exec (.absorb nb) s := by
  obtain ⟨-, -, -, -, -, hfield, -⟩ := absorbWord_fields nb
  rw [exec_wrCtrl_of_isAbsorb (isAbsorb_absorbWord hnb), hfield]

/-- Settles O30: each word is its command, and each command has its own statement. -/
theorem ctrlWriteCompletes : Obligations.CtrlWriteCompletes := by
  unfold Obligations.CtrlWriteCompletes
  intro s hidle
  refine ⟨?nop, fun p w hpair => ?start, fun nb hphase hnb hfit hw hp => ?absorb, fun hphase hw hp h => ?one,
    fun hphase hw hp h => ?two, ?abort⟩
  case nop => rw [exec_wrCtrl_of_isNop rfl, exec_nop, whenAccepted_idle hidle, nopEffect]
  case start => rw [exec_wrCtrl_startWord, exec_start_idle hidle, startEffect_supported hpair]
  case absorb =>
    obtain ⟨t, hexec, habsorbed, -⟩ := absorbMovesDataBytes s nb hidle hphase hnb hfit hw hp
    exact ⟨t, (exec_wrCtrl_absorbWord hnb s).trans hexec, habsorbed⟩
  case one =>
    rw [exec_wrCtrl_of_isFinal rfl]
    exact finalWithOneBlock s hidle hphase hw hp h
  case two =>
    rw [exec_wrCtrl_of_isFinal rfl]
    exact finalWithTwoBlocks s hidle hphase hw hp h
  case abort =>
    rw [exec_wrCtrl_of_isAbort rfl, exec_abort, whenAccepted_idle hidle]
    rfl

end Sys2Proof.Machine
end

section
/-! The round datapath's other organisations (41_compression.md R150, R151) refined to the p rounds, and O37 to O39. -/

namespace Sys2Proof.Machine

/-! ## The sequencer -/

theorem seqRun_add (w : Nat → Word) (p : BitVec 3) (m n : Nat) (q : Sequencer) :
    seqRun w p (m + n) q = seqRun w p n (seqRun w p m q) := by
  induction m generalizing q with
  | zero => rw [Nat.zero_add, seqRun]
  | succ m ih => rw [Nat.add_right_comm, seqRun, ih, seqRun]

theorem seqRun_succ (w : Nat → Word) (p : BitVec 3) (n : Nat) (q : Sequencer) :
    seqRun w p (n + 1) q = seqNext w p (seqRun w p n q) := by
  rw [seqRun_add, seqRun, seqRun]

/-- The sequencer with round `k + 1` and step `n` still to perform, and T = `t`. -/
def seqAt (t : Words8) (k n : Nat) : Sequencer :=
  { t := t, round := BitVec.ofNat 3 (k + 1), step := BitVec.ofNat 5 n, stopped := false }

/-- A session of p passes has p round tables (R145). -/
theorem length_roundTables : ∀ {p : BitVec 3}, supportedPasses p = true → (roundTables p).length = p.toNat := by
  decide

/-- T after the first `k` rounds. -/
def afterRounds (w : Nat → Word) (p : BitVec 3) (fp : Words8) (k : Nat) : Words8 :=
  ((roundTables p).take k).foldl (runRound w) fp

theorem afterRounds_succ {w : Nat → Word} {p : BitVec 3} {k : Nat} {r : RoundTable} (fp : Words8)
    (hr : (roundTables p)[k]? = some r) : afterRounds w p fp (k + 1) = runRound w (afterRounds w p fp k) r := by
  rw [afterRounds, List.take_add_one, hr, Option.toList_some, List.foldl_concat, afterRounds]

theorem afterRounds_all {w : Nat → Word} {p : BitVec 3} (hp : supportedPasses p = true) (fp : Words8) :
    afterRounds w p fp p.toNat = runRounds w p fp := by
  rw [afterRounds, ← length_roundTables hp, List.take_length, runRounds]

theorem exists_roundTable {p : BitVec 3} (hp : supportedPasses p = true) {k : Nat} (hk : k < p.toNat) :
    ∃ r, (roundTables p)[k]? = some r :=
  ⟨_, List.getElem?_eq_getElem (length_roundTables hp ▸ hk)⟩

section
variable (w : Nat → Word) {p : BitVec 3} {k : Nat} {r : RoundTable} (hk : k < p.toNat)
  (hr : (roundTables p)[k]? = some r)
include hk hr

/-- A step before the last one of its round advances the step counter. -/
theorem seqNext_seqAt {n : Nat} (hn : n < 31) (t : Words8) :
    seqNext w p (seqAt t k n) = seqAt (roundStep r w t n) k (n + 1) := by
  have hp : p.toNat < 8 := p.isLt
  have hround : (BitVec.ofNat 3 (k + 1)).toNat - 1 = k := by rw [BitVec.toNat_ofNat]; omega
  have hstep : (BitVec.ofNat 5 n).toNat = n := by rw [BitVec.toNat_ofNat]; omega
  have hlast : BitVec.ofNat 5 n ≠ 31 := fun h => absurd (hstep.symm.trans (congrArg BitVec.toNat h)) (by simp; omega)
  simp only [seqNext, seqAt, hround, hr, hstep, if_neg hlast, Bool.false_eq_true, if_false]
  rw [BitVec.ofNat_add n 1]
  rfl

/-- The last step of a round advances the round counter, or stops after the last round. -/
theorem seqNext_seqAt_last (t : Words8) :
    seqNext w p (seqAt t k 31) =
      if k + 1 = p.toNat then { t := roundStep r w t 31, round := p, step := 31, stopped := true }
      else seqAt (roundStep r w t 31) (k + 1) 0 := by
  have hp : p.toNat < 8 := p.isLt
  have hround : (BitVec.ofNat 3 (k + 1)).toNat = k + 1 := by rw [BitVec.toNat_ofNat]; omega
  have hend : BitVec.ofNat 3 (k + 1) = p ↔ k + 1 = p.toNat := by rw [BitVec.toNat_eq, hround]
  have hlast : BitVec.ofNat 5 31 = 31 := rfl
  simp only [seqNext, seqAt, hround, Nat.add_sub_cancel, hr, Bool.false_eq_true, if_false, hlast, if_true, hend]
  split
  · next h => rw [hend.2 h]; rfl
  · rw [BitVec.ofNat_add (k + 1)]; rfl

/-- The first steps of a round. -/
theorem seqRun_seqAt {n : Nat} (hn : n ≤ 31) (t : Words8) :
    seqRun w p n (seqAt t k 0) = seqAt ((List.range n).foldl (roundStep r w) t) k n := by
  induction n with
  | zero => rfl
  | succ n ih => rw [seqRun_succ, ih (by omega), seqNext_seqAt w hk hr (by omega), List.range_succ, List.foldl_concat]

/-- A whole round. -/
theorem seqRun_round (t : Words8) :
    seqRun w p 32 (seqAt t k 0) =
      if k + 1 = p.toNat then { t := runRound w t r, round := p, step := 31, stopped := true }
      else seqAt (runRound w t r) (k + 1) 0 := by
  have hround : runRound w t r = roundStep r w ((List.range 31).foldl (roundStep r w) t) 31 := by
    rw [runRound, List.range_succ, List.foldl_concat]
  rw [seqRun_succ, seqRun_seqAt w hk hr (le_refl 31), seqNext_seqAt_last w hk hr, hround]

end

/-- After `k` rounds, not all of them, the sequencer is at the start of the next one. -/
theorem seqRun_rounds (w : Nat → Word) {p : BitVec 3} (hp : supportedPasses p = true) (fp : Words8) {k : Nat}
    (hk : k < p.toNat) : seqRun w p (32 * k) (seqStart fp) = seqAt (afterRounds w p fp k) k 0 := by
  induction k with
  | zero => rfl
  | succ k ih =>
    obtain ⟨r, hr⟩ := exists_roundTable hp (Nat.lt_of_succ_lt hk)
    rw [Nat.mul_succ, seqRun_add, ih (Nat.lt_of_succ_lt hk), seqRun_round w (Nat.lt_of_succ_lt hk) hr,
      if_neg (by omega), afterRounds_succ fp hr]

/-- Settles O37: n steps are n div 32 rounds and the first n mod 32 steps of the next one; the last round stops. -/
theorem sequencerRunsTheRounds : Obligations.SequencerRunsTheRounds := by
  unfold Obligations.SequencerRunsTheRounds
  intro w p fp hp
  have hlt : p.toNat < 8 := p.isLt
  refine ⟨fun n hn => ?position, ?stopped⟩
  case position =>
    have hk : n / 32 < p.toNat := by omega
    obtain ⟨r, hr⟩ := exists_roundTable hp hk
    have hn' : 32 * (n / 32) + n % 32 = n := by omega
    rw [← hn', seqRun_add, seqRun_rounds w hp fp hk, seqRun_seqAt w hk hr (by omega), hn']
    refine ⟨?_, ?_, rfl⟩
    · rw [seqAt, BitVec.toNat_ofNat]; omega
    · rw [seqAt, BitVec.toNat_ofNat]; omega
  case stopped =>
    obtain ⟨k, hk⟩ : ∃ k, p.toNat = k + 1 := Nat.exists_eq_succ_of_ne_zero (by revert p; decide)
    obtain ⟨r, hr⟩ := exists_roundTable hp (k := k) (by omega)
    rw [hk, Nat.mul_succ, seqRun_add, seqRun_rounds w hp fp (by omega), seqRun_round w (by omega) hr, if_pos hk.symm,
      ← afterRounds_succ fp hr, ← hk, afterRounds_all hp]

/-! ## k steps per clock -/

/-- Folding over `m` groups of `k` consecutive numbers is folding over all of them. -/
theorem foldl_range_groups {α : Type} (f : α → Nat → α) (k m : Nat) (t : α) :
    (List.range m).foldl (fun t c => (List.range k).foldl (fun t j => f t (k * c + j)) t) t =
      (List.range (k * m)).foldl f t := by
  induction m with
  | zero => rfl
  | succ m ih =>
    rw [List.range_succ, List.foldl_concat, ih, Nat.mul_succ, List.range_add, List.foldl_append, List.foldl_map]

/-- A round of 32/k clocks of k steps is the round of 32 steps. -/
theorem foldl_unrolledClock {k : Nat} (hk : k ∣ 32) (w : Nat → Word) (t : Words8) (r : RoundTable) :
    (List.range (32 / k)).foldl (unrolledClock k r w) t = runRound w t r := by
  rw [runRound, ← Nat.mul_div_cancel' hk, ← foldl_range_groups, Nat.mul_div_cancel' hk]
  rfl

/-- Settles O38: round by round. -/
theorem unrolledFormAgrees : Obligations.UnrolledFormAgrees := by
  unfold Obligations.UnrolledFormAgrees
  intro k w p fp hk
  simp only [unrolledRounds, foldl_unrolledClock hk, runRounds]

/-- Settles O39: ITERATIVE is one step per clock, and a stage of PIPELINED is a round. -/
theorem organisationChangesNoResult : Obligations.OrganisationChangesNoResult := by
  unfold Obligations.OrganisationChangesNoResult
  intro impl w p fp
  cases impl with
  | iterative => exact unrolledFormAgrees 1 w p fp (one_dvd 32)
  | unrolled k => exact unrolledFormAgrees k.val w p fp k.property
  | pipelined => rw [organisedRounds, pipelinedRounds, List.foldl_map, runRounds]

end Sys2Proof.Machine
end

section
/-! The constant tables (45_tables.md), chaining (41_compression.md R147, R148), tailoring and the output multiplexer
(43_tailoring.md), and O40 to O42 and O45 to O47. -/

namespace Sys2Proof.Machine

open Sys2Proof.Certificates

/-! ## The round functions and the tables -/

/-- Settles O40: each equation is one of single bits, at every bit position, and holds of all values of the seven. -/
theorem gateFormsAgree : Obligations.GateFormsAgree := by
  unfold Obligations.GateFormsAgree
  intro x6 x5 x4 x3 x2 x1 x0
  simp only [f1, f2, f3, f4, f5]
  refine ⟨?_, ?_, ?_, ?_, ?_⟩
  all_goals
    ext i hi
    simp only [BitVec.getElem_xor, BitVec.getElem_and, BitVec.getElem_not]
    generalize x6[i] = b6, x5[i] = b5, x4[i] = b4, x3[i] = b3, x2[i] = b2, x1[i] = b1, x0[i] = b0
    revert b6 b5 b4 b3 b2 b1 b0
    decide

/-- Settles O41: closed facts about the constant lists. -/
theorem tablesArePermutations : Obligations.TablesArePermutations := by
  unfold Obligations.TablesArePermutations
  exact ⟨by decide, by decide, by decide⟩

/-! ## Chaining -/

/-- Settles O42: the compression is that of the block's words, and chaining is addition of words. -/
theorem compressReadsTheBlockAndChains : Obligations.CompressReadsTheBlockAndChains := by
  unfold Obligations.CompressReadsTheBlockAndChains
  intro fp blk blk' p hp hblk
  constructor
  · rw [compress_eq_compressWords hp, compress_eq_compressWords hp]
    exact compressWords_congr hblk p fp
  · intro j _
    rw [compress, working, if_pos hp, wordAt_addWords8, BitVec.toNat_add]

/-! ## Tailoring -/

/-- A supported width is one of the five of R190. -/
theorem eq_of_supportedWords : ∀ {w : BitVec 4}, supportedWords w = true → w = 4 ∨ w = 5 ∨ w = 6 ∨ w = 7 ∨ w = 8 := by
  decide

theorem tailor_four (f : Words8) : tailor f 4 = tailor4 f := rfl
theorem tailor_five (f : Words8) : tailor f 5 = tailor5 f := rfl
theorem tailor_six (f : Words8) : tailor f 6 = tailor6 f := rfl
theorem tailor_seven (f : Words8) : tailor f 7 = tailor7 f := rfl
theorem tailor_eight (f : Words8) : tailor f 8 = f := rfl

/-- No table writes a word at the width's index or above (R191 to R194). -/
theorem wordAt_tailor_high {w : BitVec 4} (hw : supportedWords w = true) (f : Words8) {j : Nat} (hj : j < 8)
    (hhigh : w.toNat ≤ j) : wordAt (tailor f w) j = wordAt f j := by
  rcases eq_of_supportedWords hw with rfl | rfl | rfl | rfl | rfl
  · rw [tailor_four]
    have hlow : 4 ≤ j := hhigh
    interval_cases j <;> rfl
  · rw [tailor_five]
    have hlow : 5 ≤ j := hhigh
    interval_cases j <;> rfl
  · rw [tailor_six]
    have hlow : 6 ≤ j := hhigh
    interval_cases j <;> rfl
  · rw [tailor_seven]
    have hlow : 7 ≤ j := hhigh
    interval_cases j
    rfl
  · rw [tailor_eight]

/-- An eight-word array is its eight words. -/
theorem words8_eta (f : Words8) :
    #v[wordAt f 0, wordAt f 1, wordAt f 2, wordAt f 3, wordAt f 4, wordAt f 5, wordAt f 6, wordAt f 7] = f :=
  words8_ext fun j hj => by interval_cases j <;> rfl

/-- The words of `f` from index `n` on are 0. -/
def HighZero (n : Nat) (f : Words8) : Prop := ∀ j < 8, n ≤ j → wordAt f j = 0

theorem rotr_zero (n : Nat) : rotr 0#32 n = 0#32 := by
  simp [rotr]

section
variable {f : Words8}

/-! Of words that are 0, what a table adds to the others is 0 (R197). -/

theorem tailor4_of_highZero (h : HighZero 4 f) : tailor4 f = f := by
  conv_rhs => rw [← words8_eta f]
  simp [tailor4, h 4, h 5, h 6, h 7, rotr_zero]

theorem tailor5_of_highZero (h : HighZero 5 f) : tailor5 f = f := by
  conv_rhs => rw [← words8_eta f]
  simp [tailor5, h 5, h 6, h 7, rotr_zero]

theorem tailor6_of_highZero (h : HighZero 6 f) : tailor6 f = f := by
  conv_rhs => rw [← words8_eta f]
  simp [tailor6, h 6, h 7, rotr_zero]

theorem tailor7_of_highZero (h : HighZero 7 f) : tailor7 f = f := by
  conv_rhs => rw [← words8_eta f]
  simp [tailor7, h 7]

end

theorem tailor_of_highZero {w : BitVec 4} (hw : supportedWords w = true) {f : Words8} (h : HighZero w.toNat f) :
    tailor f w = f := by
  rcases eq_of_supportedWords hw with rfl | rfl | rfl | rfl | rfl
  · exact tailor4_of_highZero h
  · exact tailor5_of_highZero h
  · exact tailor6_of_highZero h
  · exact tailor7_of_highZero h
  · exact tailor_eight f

/-- Settles O45: at 256 bits there is no table; at the others the tables write below the width, and add 0. -/
theorem tailoringOfZeroHighWords : Obligations.TailoringOfZeroHighWords := by
  unfold Obligations.TailoringOfZeroHighWords
  intro f w hw
  refine ⟨?_, fun j hj hhigh => wordAt_tailor_high hw f hj hhigh, fun h => tailor_of_highZero hw h⟩
  rintro rfl
  exact tailor_eight f

/-! ## The 128-bit table, byte by byte (R191) -/

theorem rotateLeft_rotr (a : Word) {n : Nat} (h : n < 32) : (rotr a n).rotateLeft n = a := by
  rw [rotr_eq_rotateRight a h]
  ext i hi
  rw [BitVec.getElem_rotateLeft]
  simp only [Nat.mod_eq_of_lt h, BitVec.getElem_rotateRight]
  split
  · next hlow =>
    rw [dif_neg (by omega)]
    congr 1
    omega
  · next hhigh =>
    rw [dif_pos (by omega)]
    congr 1
    omega

theorem masked_and_masked (a b : Word) {m n : Word} (h : m &&& n = 0) : (a &&& m) &&& (b &&& n) = 0 := by
  calc (a &&& m) &&& (b &&& n) = (a &&& b) &&& (m &&& n) := by ac_rfl
    _ = 0 := by rw [h]; exact BitVec.and_zero

/-- Masked words at disjoint masks: their disjunction is their sum. -/
theorem or_masked_eq_add (a b c d : Word) {m n k l : Word} (h : [m, n, k, l].Pairwise fun x y => x &&& y = 0) :
    (a &&& m) ||| (b &&& n) ||| (c &&& k) ||| (d &&& l) = (a &&& m) + (b &&& n) + (c &&& k) + (d &&& l) := by
  simp only [List.pairwise_cons, List.mem_cons, List.not_mem_nil, or_false, forall_eq_or_imp, forall_eq] at h
  obtain ⟨⟨hmn, hmk, hml⟩, ⟨hnk, hnl⟩, hkl, -⟩ := h
  have hthird : ((a &&& m) ||| (b &&& n)) &&& (c &&& k) = 0 := by
    rw [BitVec.and_or_distrib_right, masked_and_masked a c hmk, masked_and_masked b c hnk]
    exact BitVec.or_self
  have hfourth : ((a &&& m) ||| (b &&& n) ||| (c &&& k)) &&& (d &&& l) = 0 := by
    rw [BitVec.and_or_distrib_right, BitVec.and_or_distrib_right, masked_and_masked a d hml, masked_and_masked b d hnl,
      masked_and_masked c d hkl, BitVec.or_self]
    exact BitVec.or_self
  rw [BitVec.add_eq_or_of_and_eq_zero _ _ (masked_and_masked a b hmn), BitVec.add_eq_or_of_and_eq_zero _ _ hthird,
    BitVec.add_eq_or_of_and_eq_zero _ _ hfourth]

/-- A word is the sum of its bytes where they stand. -/
theorem eq_add_bytes (x : Word) :
    x = (x &&& 0x000000FF) + (x &&& 0x0000FF00) + (x &&& 0x00FF0000) + (x &&& 0xFF000000) := by
  rw [← or_masked_eq_add x x x x (by decide), ← BitVec.and_or_distrib_left, ← BitVec.and_or_distrib_left,
    ← BitVec.and_or_distrib_left]
  exact BitVec.and_allOnes.symm

/-- A fold of R191 before its rotation: one byte of each of F7 to F4, by the masks. -/
def foldBytes (f : Words8) (m7 m6 m5 m4 : Word) : Word :=
  (wordAt f 7 &&& m7) ||| (wordAt f 6 &&& m6) ||| (wordAt f 5 &&& m5) ||| (wordAt f 4 &&& m4)

theorem foldBytes_eq_add (f : Words8) {m7 m6 m5 m4 : Word} (h : [m7, m6, m5, m4].Pairwise fun x y => x &&& y = 0) :
    foldBytes f m7 m6 m5 m4 = (wordAt f 7 &&& m7) + (wordAt f 6 &&& m6) + (wordAt f 5 &&& m5) + (wordAt f 4 &&& m4) :=
  or_masked_eq_add _ _ _ _ h

theorem wordAt_tailor4_low (f : Words8) :
    wordAt (tailor4 f) 0 = wordAt f 0 + rotr (foldBytes f 0x000000FF 0xFF000000 0x00FF0000 0x0000FF00) 8 ∧
    wordAt (tailor4 f) 1 = wordAt f 1 + rotr (foldBytes f 0x0000FF00 0x000000FF 0xFF000000 0x00FF0000) 16 ∧
    wordAt (tailor4 f) 2 = wordAt f 2 + rotr (foldBytes f 0x00FF0000 0x0000FF00 0x000000FF 0xFF000000) 24 ∧
    wordAt (tailor4 f) 3 = wordAt f 3 + foldBytes f 0xFF000000 0x00FF0000 0x0000FF00 0x000000FF :=
  ⟨rfl, rfl, rfl, rfl⟩

/-- Settles O46: rotated back, the four words are the folds, whose sixteen bytes are those of F4 to F7. -/
theorem tailoringUsesEachByteOnce : Obligations.TailoringUsesEachByteOnce := by
  unfold Obligations.TailoringUsesEachByteOnce
  intro f hzero
  obtain ⟨h0, h1, h2, h3⟩ := wordAt_tailor4_low f
  rw [h0, h1, h2, h3, hzero 0 (by decide), hzero 1 (by decide), hzero 2 (by decide), hzero 3 (by decide)]
  simp only [zero_add]
  rw [rotateLeft_rotr _ (by decide), rotateLeft_rotr _ (by decide), rotateLeft_rotr _ (by decide),
    foldBytes_eq_add f (by decide), foldBytes_eq_add f (by decide), foldBytes_eq_add f (by decide),
    foldBytes_eq_add f (by decide)]
  conv_rhs => rw [eq_add_bytes (wordAt f 4), eq_add_bytes (wordAt f 5), eq_add_bytes (wordAt f 6),
    eq_add_bytes (wordAt f 7)]
  abel

/-! ## The output -/

theorem toNat_byteOf (k : Nat) (w : Word) : (byteOf k w).toNat = w.toNat / 2 ^ (8 * k) % 256 := by
  rw [byteOf, BitVec.extractLsb'_toNat, Nat.shiftRight_eq_div_pow]

/-- Settles O47: below the width the multiplexer passes the words on, and a byte of a word is its bits 8k+7 to 8k. -/
theorem digestIsTheFirstWords : Obligations.DigestIsTheFirstWords := by
  unfold Obligations.DigestIsTheFirstWords
  intro d w
  refine ⟨fun i hi => wordAt_digestMux d w hi, fun n hn hn' => ?_⟩
  rw [digestByte, wordAt_digestMux d w (by omega), if_pos (by omega), toNat_byteOf]

end Sys2Proof.Machine
end
